-- ==== Sys2Proof/Word.lean ====
section
/-!
DEFINITION. The word types of the core (spec/00_scope.md rule R4: `XLEN`, `PCLEN` and `ALEN` are 64, `ILEN` is 32;
spec/20_memory.md rule R30: the unit of addressing is the 8-bit byte).
-/

namespace Sys2Proof

/-- A register value, the pc or an address: 64 bits (R4, R10). -/
abbrev Word := BitVec 64

/-- The unit of addressing (R30). -/
abbrev Byte := BitVec 8

/-- A fetched instruction word, `raw` in the spec: 32 bits, the only instruction length (R4, R50). -/
abbrev Raw := BitVec 32

/-- A 5-bit register number; all 32 values are valid (R14, R51). -/
abbrev RegIdx := BitVec 5

end Sys2Proof
end

