-- ==== Sys2Proof/Syntax.lean ====
section
/-!
DEFINITION. The instructions: one constructor per row of spec/opcode_table.json, in the table's order
(spec/30_encoding.md rules R58 and R60: the dispatch is closed).
-/

namespace Sys2Proof

/-- The instruction set. Register operands are 5-bit numbers, all of them valid (R14, R51). -/
inductive Instr where
  /-- `ADDI rd, rs1, imm`: `imm` is the 64-bit sign-extended 12-bit immediate (R53, R90). -/
  | addi (rd rs1 : RegIdx) (imm : Word)
  /-- `ADD rd, rs1, rs2` (R95). -/
  | add (rd rs1 rs2 : RegIdx)
  /-- `MUL rd, rs1, rs2` (R105). -/
  | mul (rd rs1 rs2 : RegIdx)
  /-- `SUB rd, rs1, rs2` (R96). -/
  | sub (rd rs1 rs2 : RegIdx)
  /-- `SLL rd, rs1, rs2` (R97). -/
  | sll (rd rs1 rs2 : RegIdx)
  /-- `DIV rd, rs1, rs2` (R106). -/
  | div (rd rs1 rs2 : RegIdx)
  /-- `REM rd, rs1, rs2` (R107). -/
  | rem (rd rs1 rs2 : RegIdx)
  /-- The all-zero word, the end-of-program sentinel (R61, R75). -/
  | zeroSentinel
deriving DecidableEq, Repr

/-- The register an instruction writes: exactly one for each of the seven operations (R84), none for the sentinel (R75). -/
def Instr.dest? : Instr → Option RegIdx
  | .addi rd _ _ => some rd
  | .add rd _ _ => some rd
  | .mul rd _ _ => some rd
  | .sub rd _ _ => some rd
  | .sll rd _ _ => some rd
  | .div rd _ _ => some rd
  | .rem rd _ _ => some rd
  | .zeroSentinel => none

/-- The registers an instruction reads (R84, R90, R95 to R97, R105 to R107). -/
def Instr.sources : Instr → List RegIdx
  | .addi _ rs1 _ => [rs1]
  | .add _ rs1 rs2 => [rs1, rs2]
  | .mul _ rs1 rs2 => [rs1, rs2]
  | .sub _ rs1 rs2 => [rs1, rs2]
  | .sll _ rs1 rs2 => [rs1, rs2]
  | .div _ rs1 rs2 => [rs1, rs2]
  | .rem _ rs1 rs2 => [rs1, rs2]
  | .zeroSentinel => []

end Sys2Proof
end

