-- ==== Sys2Proof/WellFormed.lean ====
section
/-!
DEFINITION. Which instructions have an encoding. The only check is the range of the immediate of ADDI
(spec/30_encoding.md rules R53 and R65: `-2048 .. 2047`); register numbers are all valid (rule R51).
-/

namespace Sys2Proof

/-- The immediate is the sign extension of a 12-bit value (R53). -/
def immInRange (imm : Word) : Bool :=
  decide (-2048 ≤ imm.toInt ∧ imm.toInt ≤ 2047)

/-- The instruction has an encoding (R51, R53). -/
def Instr.wellFormed : Instr → Bool
  | .addi _ _ imm => immInRange imm
  | .add _ _ _ => true
  | .mul _ _ _ => true
  | .sub _ _ _ => true
  | .sll _ _ _ => true
  | .div _ _ _ => true
  | .rem _ _ _ => true
  | .zeroSentinel => true

end Sys2Proof
end

