-- ==== Sys2Proof/Decode.lean ====
section
/-!
DEFINITION. The decoder and the encoder (spec/30_encoding.md), and the byte-order helpers they share with the memory
controller (spec/20_memory.md rules R33, R41). Decoding is total: a word is an instruction or is rejected by name.
-/

namespace Sys2Proof

/-! Byte order -/

/-- The number a sequence of bytes spells, least significant byte first (R33, R41). -/
def leNat : List Byte → Nat
  | [] => 0
  | b :: bs => b.toNat + 2 ^ 8 * leNat bs

/-- The `n` bytes that spell a number, least significant byte first (R41, R153). -/
def leBytes : Nat → Nat → List Byte
  | 0, _ => []
  | n + 1, v => BitVec.ofNat 8 v :: leBytes n (v / 2 ^ 8)

/-! Fields (R51, R53, R54, R55) -/

/-- `raw[6:0]` (R51). -/
def opcodeOf (raw : Raw) : BitVec 7 := raw.extractLsb' 0 7
/-- `raw[11:7]` (R51). -/
def rdOf (raw : Raw) : RegIdx := raw.extractLsb' 7 5
/-- `raw[14:12]` (R51). -/
def funct3Of (raw : Raw) : BitVec 3 := raw.extractLsb' 12 3
/-- `raw[19:15]` (R51). -/
def rs1Of (raw : Raw) : RegIdx := raw.extractLsb' 15 5
/-- `raw[24:20]` (R51). -/
def rs2Of (raw : Raw) : RegIdx := raw.extractLsb' 20 5
/-- `raw[31:25]` (R51). -/
def funct7Of (raw : Raw) : BitVec 7 := raw.extractLsb' 25 7
/-- `sext_64(raw[31:20], 12)`, the I-immediate (R53). -/
def immIOf (raw : Raw) : Word := (raw.extractLsb' 20 12).signExtend 64
/-- `sext_64(raw[31:12] : 0^12, 32)`, the U-immediate (R55). -/
def immUOf (raw : Raw) : Word := (raw.extractLsb' 12 20 ++ 0#12).signExtend 64

/-! Decoded values (R52 to R56) -/

/-- The decoded value, a tagged variant of five shapes (R52 to R56; spec/90_conflicts.md C2). -/
inductive Decoded where
  /-- I-format (R53). -/
  | i (rd : RegIdx) (funct3 : BitVec 3) (rs1 : RegIdx) (imm : Word)
  /-- R-format (R52). -/
  | r (rd : RegIdx) (funct3 : BitVec 3) (rs1 rs2 : RegIdx) (funct7 : BitVec 7)
  /-- S-format (R54): selected by no opcode. -/
  | s (immLo : BitVec 5) (funct3 : BitVec 3) (rs1 rs2 : RegIdx) (immHi : BitVec 7)
  /-- U-format (R55): selected by no opcode. -/
  | u (rd : RegIdx) (imm : Word)
  /-- The unknown format, carrying the whole word (R56, decision D15). -/
  | unknown (raw : Raw)
deriving DecidableEq, Repr

/-- The I layout of a word (R53). -/
def layoutI (raw : Raw) : Decoded := .i (rdOf raw) (funct3Of raw) (rs1Of raw) (immIOf raw)
/-- The R layout of a word (R52). -/
def layoutR (raw : Raw) : Decoded := .r (rdOf raw) (funct3Of raw) (rs1Of raw) (rs2Of raw) (funct7Of raw)
/-- The S layout of a word (R54). PRESUMED positions of the two halves, [from general knowledge] in R54: log 13. -/
def layoutS (raw : Raw) : Decoded := .s (rdOf raw) (funct3Of raw) (rs1Of raw) (rs2Of raw) (funct7Of raw)
/-- The U layout of a word (R55). -/
def layoutU (raw : Raw) : Decoded := .u (rdOf raw) (immUOf raw)

/-- `Decode(raw)`: the opcode-to-format map (R57). -/
def decode (raw : Raw) : Decoded :=
  if opcodeOf raw = 0x13#7 then layoutI raw
  else if opcodeOf raw = 0x33#7 then layoutR raw
  else .unknown raw

/-- What a word selects: an instruction of the table, or a rejection by name. -/
inductive Selected where
  /-- A row of the opcode table (R58). -/
  | instr (i : Instr)
  /-- A recognised opcode with a `funct3` or `(funct3, funct7)` not in the table (R62). -/
  | unimplemented (raw : Raw)
  /-- An unrecognised opcode (R63). -/
  | unknown (raw : Raw)
  /-- A decoded value of the S or U layout, which has no meaning and which no word gives (R54, R55, R78). -/
  | unreachableFormat
deriving DecidableEq, Repr

/-- Operation selection under opcode 0x33: all ten bits of `(funct3, funct7)` are compared (R58, R59). -/
def selectR (raw : Raw) (rd : RegIdx) (funct3 : BitVec 3) (rs1 rs2 : RegIdx) (funct7 : BitVec 7) : Selected :=
  if funct3 = 0x0#3 ∧ funct7 = 0x00#7 then .instr (.add rd rs1 rs2)
  else if funct3 = 0x0#3 ∧ funct7 = 0x20#7 then .instr (.sub rd rs1 rs2)
  else if funct3 = 0x1#3 ∧ funct7 = 0x00#7 then .instr (.sll rd rs1 rs2)
  else if funct3 = 0x0#3 ∧ funct7 = 0x01#7 then .instr (.mul rd rs1 rs2)
  else if funct3 = 0x4#3 ∧ funct7 = 0x01#7 then .instr (.div rd rs1 rs2)
  else if funct3 = 0x6#3 ∧ funct7 = 0x01#7 then .instr (.rem rd rs1 rs2)
  else .unimplemented raw

/-- Operation selection from a decoded value (R58, R59, R78). Under opcode 0x13 the key is `funct3` alone. -/
def select (raw : Raw) : Decoded → Selected
  | .i rd funct3 rs1 imm => if funct3 = 0x0#3 then .instr (.addi rd rs1 imm) else .unimplemented raw
  | .r rd funct3 rs1 rs2 funct7 => selectR raw rd funct3 rs1 rs2 funct7
  | .s _ _ _ _ _ => .unreachableFormat
  | .u _ _ => .unreachableFormat
  | .unknown raw' => .unknown raw'

/-- What the core makes of a fetched word: the fetch unit compares the whole word with zero before decode (R61, R75), every
other word is decoded and selects its operation (R77, R78). -/
def recognise (raw : Raw) : Selected :=
  if raw = 0#32 then .instr .zeroSentinel else select raw (decode raw)

/-- The decoder on bytes: the first four bytes are one little-endian word (R41, R50), and the rest is handed back; `none`
when fewer than four bytes are left. -/
def decodeBytes : List Byte → Option (Selected × List Byte)
  | b0 :: b1 :: b2 :: b3 :: rest => some (recognise (BitVec.ofNat 32 (leNat [b0, b1, b2, b3])), rest)
  | _ => none

/-! Encoder -/

/-- A word of the I layout (R53). -/
def encodeI (imm12 : BitVec 12) (rs1 : RegIdx) (funct3 : BitVec 3) (rd : RegIdx) (opcode : BitVec 7) : Raw :=
  imm12 ++ rs1 ++ funct3 ++ rd ++ opcode

/-- A word of the R layout (R52). -/
def encodeR (funct7 : BitVec 7) (rs2 rs1 : RegIdx) (funct3 : BitVec 3) (rd : RegIdx) (opcode : BitVec 7) : Raw :=
  funct7 ++ rs2 ++ rs1 ++ funct3 ++ rd ++ opcode

/-- The word of an instruction, from the table of R58. The immediate keeps its low 12 bits (R53). -/
def encode : Instr → Raw
  | .addi rd rs1 imm => encodeI (imm.extractLsb' 0 12) rs1 0x0#3 rd 0x13#7
  | .add rd rs1 rs2 => encodeR 0x00#7 rs2 rs1 0x0#3 rd 0x33#7
  | .mul rd rs1 rs2 => encodeR 0x01#7 rs2 rs1 0x0#3 rd 0x33#7
  | .sub rd rs1 rs2 => encodeR 0x20#7 rs2 rs1 0x0#3 rd 0x33#7
  | .sll rd rs1 rs2 => encodeR 0x00#7 rs2 rs1 0x1#3 rd 0x33#7
  | .div rd rs1 rs2 => encodeR 0x01#7 rs2 rs1 0x4#3 rd 0x33#7
  | .rem rd rs1 rs2 => encodeR 0x01#7 rs2 rs1 0x6#3 rd 0x33#7
  | .zeroSentinel => 0#32

/-- The `mask` column of R58, and the sentinel's row of spec/opcode_table.json. -/
def Instr.mask : Instr → Raw
  | .addi _ _ _ => 0x0000707F#32
  | .add _ _ _ => 0xFE00707F#32
  | .mul _ _ _ => 0xFE00707F#32
  | .sub _ _ _ => 0xFE00707F#32
  | .sll _ _ _ => 0xFE00707F#32
  | .div _ _ _ => 0xFE00707F#32
  | .rem _ _ _ => 0xFE00707F#32
  | .zeroSentinel => 0xFFFFFFFF#32

/-- The `match` column of R58, and the sentinel's row of spec/opcode_table.json. -/
def Instr.pattern : Instr → Raw
  | .addi _ _ _ => 0x00000013#32
  | .add _ _ _ => 0x00000033#32
  | .mul _ _ _ => 0x02000033#32
  | .sub _ _ _ => 0x40000033#32
  | .sll _ _ _ => 0x00001033#32
  | .div _ _ _ => 0x02004033#32
  | .rem _ _ _ => 0x02006033#32
  | .zeroSentinel => 0x00000000#32

/-! The table's words -/

/-- The 32-bit word of an instruction given as a number of `nbits` bits, bit 0 the least significant of the first word; every
bit above is 0. -/
def tableWord (nbits w : Nat) : Raw := BitVec.ofNat 32 (w % 2 ^ nbits)

/-- The instruction the decoder reads from an instruction whose bits are `w`: the word is laid out in memory order (R41) and
the bytes are decoded; `none` where the decoder rejects the word. -/
def decodeTableWord (nbits w : Nat) : Option Instr :=
  match decodeBytes (leBytes 4 (tableWord nbits w).toNat) with
  | some (.instr i, _) => some i
  | some (.unimplemented _, _) => none
  | some (.unknown _, _) => none
  | some (.unreachableFormat, _) => none
  | none => none

end Sys2Proof
end

