-- ==== Sys2Proof/Config.lean ====
section
/-!
DEFINITION. What an implementation fixes: the constants of spec/00_scope.md rule R4 and the configurable and decided
parameters of rules R5 and R6. The spec leaves no value free, so no opaque constant stands here.
-/

namespace Sys2Proof.Config

/-- `NREGS`: the number of general registers (R4). -/
def nregs : Nat := 32

/-- `PC_STEP`: bytes added to the pc by every fetch attempt (R4). -/
def pcStep : Word := 4

/-- `WIDTHS`: the load widths in bits the memory controller supports (R4). -/
def widths : List Nat := [8, 16, 32, 64]

/-- `FETCH_WIDTH`: the width in bits the fetch unit asks of the bus (R4). -/
def fetchWidth : Nat := 32

/-- `SHAMT_MASK`: the mask applied to the shift amount of SLL (R4). -/
def shamtMask : Word := 0x3f

/-- The configuration the driver supplies at construction (R5), and the decided parameter `DIVREM_SIGNED`, which R6 lets a
conservative model carry as a configuration field. The program image, the third parameter of R5, is an argument of
`Machine.construct` of its own. -/
structure Params where
  /-- `MEM_BASE`: the lowest address the bus considers valid (R5). -/
  memBase : Word
  /-- `MEM_SIZE`: the capacity of the memory region in bytes (R5). -/
  memSize : Nat
  /-- `DIVREM_SIGNED`: DIV and REM read their operands as two's-complement numbers (R6, R109). -/
  divremSigned : Bool
deriving DecidableEq, Repr

/-- The constraints of R5 on the base and the size (decision D3). -/
def Params.valid (p : Params) : Bool :=
  decide (1 ≤ p.memSize ∧ p.memBase.toNat + p.memSize < 2 ^ 64)

/-- The spec's default `MEM_BASE` (R5, decision D1). DESIGN CHOICE (the spec's): log 1. -/
def defaultMemBase : Word := 0x80000000

/-- The document's example `MEM_SIZE`, 128 MiB (R5, decision D2). DESIGN CHOICE (the spec's): log 1. -/
def defaultMemSize : Nat := 0x08000000

/-- The decided value of `DIVREM_SIGNED` (R6, decision D7). DESIGN CHOICE (the spec's): log 5. -/
def defaultDivremSigned : Bool := true

/-- The default configuration, the one of the spec's examples (R5, R6). -/
def defaults : Params :=
  { memBase := defaultMemBase, memSize := defaultMemSize, divremSigned := defaultDivremSigned }

end Sys2Proof.Config
end

