-- ==== Sys2Proof/Machine/State.lean ====
section
/-!
DEFINITION. The state of the core as plain data (spec/10_state.md rule R11), the reasons a step can stop, and the state
right after reset (rule R25).
-/

namespace Sys2Proof.Machine

/-- The memory controller's block (spec/20_memory.md rules R32, R38): its capacity `MEM_SIZE` (configuration, R5) and the byte
array `mem` (R20). The array is held as its non-zero bytes, in rising order of index; every other byte reads `0x00`, the
fill of rule R45 (log 2). -/
structure MemoryController where
  /-- `MEM_SIZE` in bytes (R5). No step changes it. -/
  capacity : Nat
  /-- The listed bytes of `mem`: index `k` of the array and the byte `mem[k]`, which is at address `MEM_BASE + k` (R20). -/
  cells : List Host.Cell
deriving DecidableEq, Repr

/-- The address bus mapper's block (R36, R38): its base `MEM_BASE` (configuration, R5); it owns the memory. -/
structure Bus where
  /-- `MEM_BASE`, the lowest valid address (R5). No step changes it. -/
  base : Word
  /-- "The Bus owns the Memory instance" (R38). -/
  memory : MemoryController
deriving DecidableEq, Repr

/-- The run state (R18). -/
inductive RunState where
  | running
  | halted
deriving DecidableEq, Repr

/-- The halt-cause latch (R19, decision D10). -/
inductive HaltCause where
  /-- `None`, code 0: at reset and while Running. -/
  | none
  /-- `AddressOutOfRange`, code 1 (HALT-1 of R130): the bus rejected the fetch address. -/
  | addressOutOfRange (address base : Word)
  /-- `InvalidInstruction`, code 2 (HALT-2 of R130): the fetched word was zero. -/
  | invalidInstruction
deriving DecidableEq, Repr

/-- The complete state of the core (R11): registers, pc, run state, halt cause, and memory inside its bus. The configuration
(`bus.base`, `bus.memory.capacity`, `divremSigned`) stands here too, since the step takes no other argument (log 1, log 5);
no step changes it. -/
structure State where
  /-- The register file `x[0..31]` (R13). Register 0 is ordinary (R12). -/
  x : Vector Word 32
  /-- The program counter (R15). -/
  pc : Word
  /-- The run state (R18). -/
  run : RunState
  /-- The halt-cause latch (R19). -/
  cause : HaltCause
  /-- The bus and, in it, the memory (R20, R38). -/
  bus : Bus
  /-- `DIVREM_SIGNED` (R6, R109), configuration. -/
  divremSigned : Bool
deriving DecidableEq, Repr

/-- What stops the machine. -/
inductive Fault where
  /-- `MemoryOutOfBounds` (FAULT-1 of R130; R35, R76, R133): raised by the memory controller, at a fetch whose last byte lies
  past the end of memory. SAFE: the spec promises no state afterwards, and the model gives none (decision D4, log 6). -/
  | memoryOutOfBounds (index width capacity : Nat)
deriving DecidableEq, Repr

/-- Why a step has no meaning. -/
inductive Refusal where
  /-- An instruction that has no meaning yet, by its mnemonic. Raised by no arm of `exec`: every instruction has its meaning.
  SAFE: nothing is claimed of the instruction. -/
  | notModelled (mnemonic : String)
  /-- The bus answered a fetch with `InvalidWidth` (R134). Raised by `cycle`, and unreachable: the fetch unit always asks for
  width 32. SAFE: "the core has no behaviour for it" (log 14). -/
  | invalidFetchWidth
  /-- A decoded value of the S or U layout reached execute (R78 "unreachable"; U13 of spec/93_implementation_defined.md).
  Raised by `cycle`, and unreachable: no word decodes to these layouts. SAFE (log 13). -/
  | unreachableFormat
deriving DecidableEq, Repr

/-- The machine right after reset (R25, R150) with the default configuration of R5 and R6 and nothing placed in memory: pc at
`MEM_BASE`, Running, no cause, every register 0 but register 2, which holds `MEM_BASE + MEM_SIZE`. The decisions behind the
values are in log 1 (base and size), log 3 (register 2), log 4 (the other registers) and log 5 (signedness). -/
def State.reset : State where
  x := (Vector.replicate 32 0#64).set 2 (Config.defaultMemBase + BitVec.ofNat 64 Config.defaultMemSize)
  pc := Config.defaultMemBase
  run := .running
  cause := .none
  bus := { base := Config.defaultMemBase, memory := { capacity := Config.defaultMemSize, cells := [] } }
  divremSigned := Config.defaultDivremSigned

end Sys2Proof.Machine
end

