-- ==== Sys2Proof/Machine/Ops.lean ====
section
/-!
DEFINITION. The named operations over registers and memory: the register file (spec/10_state.md rules R12, R14), the pc (R16),
entry to Halted (spec/60_exceptions.md rule R140, the only thing this hardware has in place of taking an exception), the
memory controller and the bus (spec/20_memory.md), construction (R45, R150) and the snapshot (R26).
-/

namespace Sys2Proof.Machine

/-! Registers, pc, run state -/

/-- `x[i]` (R13). Every register number is valid and register 0 reads like any other (R12, R14). -/
def State.readReg (s : State) (i : RegIdx) : Word := s.x[i.toNat]'i.isLt

/-- `x[i] <- v`. "Writes to register index 0 are not special-cased" (R12). -/
def State.writeReg (s : State) (i : RegIdx) (v : Word) : State := { s with x := s.x.set i.toNat v i.isLt }

/-- `pc <- u64(pc + 4)`, the fetch unit's advance (R16, R73; the wrap by decision D8, log 7). -/
def State.advancePc (s : State) : State := { s with pc := s.pc + Config.pcStep }

/-- `halt(c)`: entry to Halted (R10, R140). Registers, pc and memory are kept; there is no trap entry (R139) and no return
but reset (R141). -/
def State.halt (s : State) (c : HaltCause) : State := { s with run := .halted, cause := c }

/-- The number of a run state (R22). -/
def RunState.code : RunState → BitVec 1
  | .running => 0
  | .halted => 1

/-- The number of a halt cause (R19, R22, decision D10). -/
def HaltCause.code : HaltCause → BitVec 2
  | .none => 0
  | .addressOutOfRange _ _ => 1
  | .invalidInstruction => 2

/-! Memory controller (R32 to R35) -/

/-- The byte listed at an index, or `0x00`, the fill of the region (R45). -/
def cellAt : List Host.Cell → Nat → Byte
  | [], _ => 0#8
  | (j, b) :: rest, k => if j = k then b else cellAt rest k

/-- The list with the byte at an index replaced, in canonical form: indices rising, no zero byte listed. -/
def setCell : List Host.Cell → Nat → Byte → List Host.Cell
  | [], k, v => if v = 0#8 then [] else [(k, v)]
  | (j, b) :: rest, k, v =>
    if k < j then (if v = 0#8 then (j, b) :: rest else (k, v) :: (j, b) :: rest)
    else if k = j then (if v = 0#8 then rest else (k, v) :: rest)
    else (j, b) :: setCell rest k v

/-- The canonical form of the memory array: indices strictly rising and below the capacity, no zero byte listed (log 2). -/
def MemoryController.wf (m : MemoryController) : Bool :=
  decide (m.cells.Pairwise fun c d => c.1 < d.1) && m.cells.all fun c => decide (c.1 < m.capacity ∧ c.2 ≠ 0#8)

/-- `mem[k]` (R20). -/
def MemoryController.byte (m : MemoryController) (k : Nat) : Byte := cellAt m.cells k

/-- `mem[k] <- v`. Only construction places bytes (R45); no step does, since the hardware has no write path (R40). -/
def MemoryController.place (m : MemoryController) (k : Nat) (v : Byte) : MemoryController :=
  { m with cells := setCell m.cells k v }

/-- Bytes placed one after another from an offset on (R45). -/
def MemoryController.overlay (m : MemoryController) (offset : Nat) : List Byte → MemoryController
  | [] => m
  | b :: bs => (m.place offset b).overlay (offset + 1) bs

/-- The error results of the memory path. -/
inductive LoadError where
  /-- `InvalidWidth` (ERR-1 of R130; R34). -/
  | invalidWidth
  /-- `AddressOutOfRange{address, base}` (R36). -/
  | addressOutOfRange (address base : Word)
deriving DecidableEq, Repr

/-- The outcomes of a load (R10, R39): `Ok(v)`, `Err(e)`, or the fault `MemoryOutOfBounds{index, width, capacity}` (R35). -/
inductive LoadResult where
  | ok (v : Nat)
  | err (e : LoadError)
  | outOfBounds (index width capacity : Nat)
deriving DecidableEq, Repr

/-- The `n` bytes of `mem` from an index on. -/
def MemoryController.bytes (m : MemoryController) (index : Nat) : Nat → List Byte
  | 0 => []
  | n + 1 => m.byte index :: m.bytes (index + 1) n

/-- `MemLoad(index, width)`: first the width (R34, decision D16), then the upper bound (R35, decision D4), then the
little-endian value (R33). No alignment is asked for (R42). -/
def MemoryController.load (m : MemoryController) (index width : Nat) : LoadResult :=
  if width ∈ Config.widths then
    if index + width / 8 ≤ m.capacity then .ok (leNat (m.bytes index (width / 8)))
    else .outOfBounds index width m.capacity
  else .err .invalidWidth

/-! Bus mapper (R36, R37) -/

/-- `BusLoad(addr, width)`: the lower bound, then the memory controller at the offset from the base (R36, R37). -/
def Bus.load (b : Bus) (addr : Word) (width : Nat) : LoadResult :=
  if addr < b.base then .err (.addressOutOfRange addr b.base)
  else b.memory.load (addr - b.base).toNat width

/-! Construction and reset (R45, R150) -/

/-- Why construction fails: no core exists and no step can be taken (R137). -/
inductive ConstructionError where
  /-- `ImageTooLarge` (CONS-1 of R130; R45, R137). -/
  | imageTooLarge
  /-- The base and the size break the constraints of R5 (R150 step 1, decision D3); the name is the model's (log 10). -/
  | invalidParameters
deriving DecidableEq, Repr

/-- `SP_RESET`: the address one past the last byte of memory (R6, R25, decision D5; log 3). -/
def spReset (p : Config.Params) : Word := p.memBase + BitVec.ofNat 64 p.memSize

/-- The register file at reset: register 2 holds `SP_RESET`, every other register `REG_RESET = 0` (R6, R25; log 3, log 4). -/
def regsReset (p : Config.Params) : Vector Word 32 := (Vector.replicate 32 0#64).set 2 (spReset p)

/-- The memory array at reset: zero-filled to its capacity, the image overlaid from offset 0 (R45). -/
def memoryReset (size : Nat) (image : List Byte) : MemoryController :=
  MemoryController.overlay { capacity := size, cells := [] } 0 image

/-- Reset with a configuration and a program image (R150): the checks of step 1, then the state of R25. -/
def construct (p : Config.Params) (image : List Byte) : Except ConstructionError State :=
  if p.valid = false then .error .invalidParameters
  else if p.memSize < image.length then .error .imageTooLarge
  else .ok
    { x := regsReset p
      pc := p.memBase
      run := .running
      cause := .none
      bus := { base := p.memBase, memory := memoryReset p.memSize image }
      divremSigned := p.divremSigned }

/-! What the outside sees (R26) -/

/-- The snapshot's fields (R26). -/
structure Snapshot where
  x : Vector Word 32
  pc : Word
  run : RunState
  cause : HaltCause
deriving DecidableEq, Repr

/-- The read-only copy the host may take between steps (R26). -/
def State.snapshot (s : State) : Snapshot := { x := s.x, pc := s.pc, run := s.run, cause := s.cause }

/-! Placing one instruction where the next step fetches -/

/-- The state with a word stored, least significant byte first, at the four bytes the next step fetches, and Running. A state
whose pc has no whole word of memory is left as it is. No operation of the hardware: it stands for the load of an image
(R45, R153; log 15). -/
def State.placeWord (s : State) (w : Raw) : State :=
  let index := (s.pc - s.bus.base).toNat
  if s.pc < s.bus.base then s
  else if index + 4 ≤ s.bus.memory.capacity then
    { s with
      run := .running
      bus := { s.bus with memory := s.bus.memory.overlay index (leBytes 4 w.toNat) } }
  else s

end Sys2Proof.Machine
end

