-- ==== Sys2Proof/Machine/Operands.lean ====
section
/-!
DEFINITION. The arithmetic of the execute stage (spec/42_integer_register.md rule R98, spec/43_multiply_divide.md rules R108
to R111) and the two operand forms every operation has (spec/40_fetch_and_step.md rule R84). The hardware has no flags
(spec/10_state.md rule R21), so no flag computation stands anywhere.
-/

namespace Sys2Proof.Machine

/-- `s64(v)`: the two's-complement reading (R10). -/
def s64 (v : Word) : Int := v.toInt

/-- `u64(n)`: an integer reduced modulo 2^64 (R10). -/
def u64 (n : Int) : Word := BitVec.ofInt 64 n

/-- The sum modulo 2^64 (R90, R95, R98). -/
def aluAdd (a b : Word) : Word := a + b

/-- The difference modulo 2^64 (R96, R98). -/
def aluSub (a b : Word) : Word := a - b

/-- The left shift by the low 6 bits of the second operand (R97). -/
def aluSll (a b : Word) : Word := a <<< (b &&& Config.shamtMask).toNat

/-- The low 64 bits of the product (R105, R108). -/
def aluMul (a b : Word) : Word := a * b

/-- `divq(a, b)` for both values of `DIVREM_SIGNED` (R109, decision D7; log 5). -/
def divq (signed : Bool) (a b : Word) : Word :=
  if signed then u64 ((s64 a).tdiv (s64 b)) else a / b

/-- `remr(a, b)` for both values of `DIVREM_SIGNED` (R109, decision D7; log 5). -/
def remr (signed : Bool) (a b : Word) : Word :=
  if signed then u64 (s64 a - (s64 a).tdiv (s64 b) * s64 b) else a - a / b * b

/-- The quotient DIV writes: the dividend when the divisor is zero (R106, R111). -/
def aluDiv (signed : Bool) (a b : Word) : Word := if b = 0#64 then a else divq signed a b

/-- The remainder REM writes: the dividend when the divisor is zero (R107, R111). -/
def aluRem (signed : Bool) (a b : Word) : Word := if b = 0#64 then a else remr signed a b

/-- A register-register operation: both sources are read, then `x[rd]` is written (R14, R84). -/
def execR (f : Word → Word → Word) (rd rs1 rs2 : RegIdx) (s : State) : Host.Outcome State Fault Refusal :=
  .next (s.writeReg rd (f (s.readReg rs1) (s.readReg rs2)))

/-- A register-immediate operation: the source is read, then `x[rd]` is written (R14, R84). -/
def execI (f : Word → Word → Word) (rd rs1 : RegIdx) (imm : Word) (s : State) : Host.Outcome State Fault Refusal :=
  .next (s.writeReg rd (f (s.readReg rs1) imm))

end Sys2Proof.Machine
end

