-- ==== Sys2Proof/Machine/IntegerImmediate.lean ====
section
/-!
DEFINITION. The integer register-immediate instruction (spec/41_integer_immediate.md).
-/

namespace Sys2Proof.Machine

/-- ADDI: `x[rd] <- u64(x[rs1] + imm)` (R90). -/
def execAddi (rd rs1 : RegIdx) (imm : Word) (s : State) : Host.Outcome State Fault Refusal :=
  execI aluAdd rd rs1 imm s

end Sys2Proof.Machine
end

