-- ==== Sys2Proof/Machine/IntegerRegister.lean ====
section
/-!
DEFINITION. The integer register-register instructions (spec/42_integer_register.md).
-/

namespace Sys2Proof.Machine

/-- ADD: `x[rd] <- u64(x[rs1] + x[rs2])` (R95). -/
def execAdd (rd rs1 rs2 : RegIdx) (s : State) : Host.Outcome State Fault Refusal :=
  execR aluAdd rd rs1 rs2 s

/-- SUB: `x[rd] <- u64(x[rs1] - x[rs2])` (R96). -/
def execSub (rd rs1 rs2 : RegIdx) (s : State) : Host.Outcome State Fault Refusal :=
  execR aluSub rd rs1 rs2 s

/-- SLL: `x[rd] <- u64(x[rs1] * 2^(x[rs2] & 0x3f))` (R97). -/
def execSll (rd rs1 rs2 : RegIdx) (s : State) : Host.Outcome State Fault Refusal :=
  execR aluSll rd rs1 rs2 s

end Sys2Proof.Machine
end

