-- ==== Sys2Proof/Machine/MultiplyDivide.lean ====
section
/-!
DEFINITION. The multiply and divide instructions (spec/43_multiply_divide.md).
-/

namespace Sys2Proof.Machine

/-- MUL: `x[rd] <- u64(x[rs1] * x[rs2])` (R105). -/
def execMul (rd rs1 rs2 : RegIdx) (s : State) : Host.Outcome State Fault Refusal :=
  execR aluMul rd rs1 rs2 s

/-- DIV: the dividend when `x[rs2] = 0`, else `divq(x[rs1], x[rs2])` (R106, R111). -/
def execDiv (rd rs1 rs2 : RegIdx) (s : State) : Host.Outcome State Fault Refusal :=
  execR (aluDiv s.divremSigned) rd rs1 rs2 s

/-- REM: the dividend when `x[rs2] = 0`, else `remr(x[rs1], x[rs2])` (R107, R111). -/
def execRem (rd rs1 rs2 : RegIdx) (s : State) : Host.Outcome State Fault Refusal :=
  execR (aluRem s.divremSigned) rd rs1 rs2 s

end Sys2Proof.Machine
end

