-- ==== Sys2Proof/Machine/Sentinel.lean ====
section
/-!
DEFINITION. The all-zero word (spec/40_fetch_and_step.md rule R75, spec/30_encoding.md rule R61).
-/

namespace Sys2Proof.Machine

/-- The end-of-program sentinel: `run <- Halted`, `cause <- InvalidInstruction`; the pc has already advanced and no register
changes (R75, R132). -/
def execZeroSentinel (s : State) : Host.Outcome State Fault Refusal :=
  .next (s.halt .invalidInstruction)

end Sys2Proof.Machine
end

