-- ==== Sys2Proof/Machine/Cycle.lean ====
section
/-!
DEFINITION. One fetch, decode, execute cycle with its diagnostic event (spec/40_fetch_and_step.md rule R71, spec/10_state.md
rule R27).
-/

namespace Sys2Proof.Machine

/-- The diagnostic event of a step, "a value and not state" (R27, decision D11; log 9). -/
inductive Event where
  /-- `NoDiag`: an instruction of the table executed. -/
  | noDiag
  /-- `UnknownOpcode(raw)` (DIAG-1 of R130; R79, R135). -/
  | unknownOpcode (raw : Raw)
  /-- `UnimplementedInstruction(raw)` (DIAG-2 of R130; R80, R136). -/
  | unimplementedInstruction (raw : Raw)
  /-- `HaltedNow(cause)`: the step made the transition to Halted. -/
  | haltedNow (cause : HaltCause)
  /-- `Idle`: the step was taken while already Halted. -/
  | idle
deriving DecidableEq, Repr

/-- The event of an executed instruction: `HaltedNow` where it halted the core, `NoDiag` otherwise (R27, R78). -/
def executedEvent (t : State) : Event :=
  match t.run with
  | .halted => .haltedNow t.cause
  | .running => .noDiag

/-- An instruction's outcome with its event. -/
def withEvent (o : Host.Outcome State Fault Refusal) : Host.Outcome (State × Event) Fault Refusal :=
  match o with
  | .next t => .next (t, executedEvent t)
  | .fault r => .fault r
  | .refused r => .refused r

/-- Decode and execute of a fetched word, on the state whose pc has advanced (R71, R75, R77, R78). A word that selects no
instruction is a no-op with its diagnostic (R79, R80). -/
def executeWord (w : Raw) (s : State) : Host.Outcome (State × Event) Fault Refusal :=
  match recognise w with
  | .instr i => withEvent (exec i s)
  | .unimplemented raw => .next (s, .unimplementedInstruction raw)
  | .unknown raw => .next (s, .unknownOpcode raw)
  | .unreachableFormat => .refused .unreachableFormat

/-- What follows the bus's answer to a fetch, from the state at the start of the step (R71, R74, R76): the pc advances
unless the memory controller faulted. -/
def afterFetch (res : LoadResult) (s : State) : Host.Outcome (State × Event) Fault Refusal :=
  match res with
  | .ok v => executeWord (BitVec.ofNat 32 v) s.advancePc
  | .err (.addressOutOfRange address base) =>
    .next (s.advancePc.halt (.addressOutOfRange address base), .haltedNow (.addressOutOfRange address base))
  | .err .invalidWidth => .refused .invalidFetchWidth
  | .outOfBounds index width capacity => .fault (.memoryOutOfBounds index width capacity)

/-- The fetch of a step: 32 bits at the pc (R72). -/
def State.fetch (s : State) : LoadResult := s.bus.load s.pc Config.fetchWidth

/-- `Step()` with its event (R71). A halted core changes nothing (R81, decision D9; log 8). -/
def cycle (s : State) : Host.Outcome (State × Event) Fault Refusal :=
  match s.run with
  | .halted => .next (s, .idle)
  | .running => afterFetch s.fetch s

/-- The outcome of a cycle without its event. -/
def dropEvent (o : Host.Outcome (State × Event) Fault Refusal) : Host.Outcome State Fault Refusal :=
  match o with
  | .next r => .next r.1
  | .fault r => .fault r
  | .refused r => .refused r

end Sys2Proof.Machine
end

