-- ==== Sys2Proof/Machine/Step.lean ====
section
/-!
DEFINITION. One step of the core (spec/40_fetch_and_step.md rule R71), and the placing of one instruction where the next step
fetches.
-/

namespace Sys2Proof.Machine

/-- `Step()` (R71): the cycle without its diagnostic event, which is no state (R27). -/
def step (s : State) : Host.Outcome State Fault Refusal := dropEvent (cycle s)

/-- `s` with the instruction whose bits are `w` (every bit from `nbits` up 0) stored where `step` fetches next (log 15). -/
def State.withFetchWord (s : State) (nbits w : Nat) : State := s.placeWord (tableWord nbits w)

end Sys2Proof.Machine
end

