-- ==== Sys2Proof/Safety.lean ====
section
/-!
DEFINITION. What counts as a finished and a legal run: the end of a run (spec/00_scope.md rule R9), the driver's loop
(spec/40_fetch_and_step.md rule R82), and the facts about a configured core that every step keeps.
-/

namespace Sys2Proof.Machine

/-- The end of a run: the first state with `run = Halted` (R9). -/
abbrev State.Finished (s : State) : Prop := s.run = .halted

/-- The driver: it "Repeats Fetch→Decode→Execute until Halted" (R82), here for at most `n` steps. -/
def drive : Nat → State → Host.Outcome State Fault Refusal
  | 0, s => .next s
  | n + 1, s =>
    match s.run with
    | .halted => .next s
    | .running =>
      match step s with
      | .next t => drive n t
      | .fault r => .fault r
      | .refused r => .refused r

/-- The offset of the pc from the base of memory, the index a fetch hands to the memory controller (R37, R72). -/
def State.fetchIndex (s : State) : Nat := (s.pc - s.bus.base).toNat

/-- The constraints of R5 on the configuration a state holds (decision D3). -/
abbrev State.Configured (s : State) : Prop :=
  1 ≤ s.bus.memory.capacity ∧ s.bus.base.toNat + s.bus.memory.capacity < 2 ^ 64

/-- The memory array is in canonical form (log 2). -/
abbrev State.MemoryOk (s : State) : Prop := s.bus.memory.wf = true

/-- The pc is congruent to the base modulo 4 (R17), is not below it, and is at most the end of memory (R17). -/
abbrev State.PcOk (s : State) : Prop :=
  s.bus.base.toNat ≤ s.pc.toNat ∧ (s.pc.toNat - s.bus.base.toNat) % 4 = 0 ∧
    s.pc.toNat ≤ s.bus.base.toNat + s.bus.memory.capacity

/-- The latch holds `None` exactly while Running (R19), and never `AddressOutOfRange` (R131: it cannot occur in a core
configured within R5). -/
abbrev State.CauseOk (s : State) : Prop :=
  (s.run = .running → s.cause = .none) ∧ (s.run = .halted → s.cause = .invalidInstruction)

/-- The invariant of a core configured within R5. -/
abbrev State.Inv (s : State) : Prop := s.Configured ∧ s.MemoryOk ∧ s.PcOk ∧ s.CauseOk

/-- The frame of an operation that writes one register (R84): every other register, the pc, the run state, the latch, the bus
with every byte of memory, and the configuration are as before. -/
structure State.SameBut (rd : RegIdx) (s t : State) : Prop where
  regs : ∀ r, r ≠ rd → t.readReg r = s.readReg r
  pc : t.pc = s.pc
  run : t.run = s.run
  cause : t.cause = s.cause
  bus : t.bus = s.bus
  bytes : ∀ k, t.bus.memory.byte k = s.bus.memory.byte k
  divremSigned : t.divremSigned = s.divremSigned

/-- The frame of a step that writes no register: all registers, the bus with every byte of memory, and the configuration are
as before (R140, R79, R80). -/
structure State.SameData (s t : State) : Prop where
  regs : ∀ r, t.readReg r = s.readReg r
  bus : t.bus = s.bus
  bytes : ∀ k, t.bus.memory.byte k = s.bus.memory.byte k
  divremSigned : t.divremSigned = s.divremSigned

end Sys2Proof.Machine
end

