-- ==== Sys2Proof/Certificates/Slice0/Obligations.lean ====
section
/-!
DEFINITION. The statements about the model, from the numbered rules of spec/. The rules are named R<n>, the decisions of
spec/92_eei_decisions.md D<n>, the assumption log's rows log <n>.
-/

open Sys2Proof Sys2Proof.Machine

/-! Encoding and decoding (spec/30_encoding.md) -/

/-- A few of the spec's own words decode as spec/95_test_vectors.md says (E1, E2, E6 to E8, E10, P1, P4, P8, S6, Program B). -/
def Obligations.DecodesSpecWords : Prop :=
  recognise 0x00100093#32 = .instr (.addi 1 0 1) ∧
  recognise 0xFFF00093#32 = .instr (.addi 1 0 (-1)) ∧
  recognise 0x00000033#32 = .instr (.add 0 0 0) ∧
  recognise 0x401202B3#32 = .instr (.sub 5 4 1) ∧
  recognise 0x002091B3#32 = .instr (.sll 3 1 2) ∧
  recognise 0x02308233#32 = .instr (.mul 4 1 3) ∧
  recognise 0x0240C1B3#32 = .instr (.div 3 1 4) ∧
  recognise 0x0230E2B3#32 = .instr (.rem 5 1 3) ∧
  recognise 0x00000000#32 = .instr .zeroSentinel ∧
  recognise 0x00000080#32 = .unknown 0x00000080#32 ∧
  recognise 0x00309393#32 = .unimplemented 0x00309393#32 ∧
  recognise 0x04208033#32 = .unimplemented 0x04208033#32

/-- Decoding an encoded well-formed instruction gives it back, on the word and on the bytes in memory order, whatever
bytes follow. -/
def Obligations.DecodeOfEncode : Prop :=
  ∀ i : Instr, i.wellFormed = true →
    recognise (encode i) = .instr i ∧
    decodeTableWord 32 (encode i).toNat = some i ∧
    ∀ rest : List Byte, decodeBytes (leBytes 4 (encode i).toNat ++ rest) = some (.instr i, rest)

/-- A word that is an instruction is the one word of that instruction, and the instruction is well-formed. -/
def Obligations.EncodeOfDecode : Prop :=
  ∀ (w : Raw) (i : Instr), recognise w = .instr i → i.wellFormed = true ∧ encode i = w

/-- The rows of R58 and the sentinel's row of the opcode table: the mask and the match select exactly the row's
instruction. -/
def Obligations.MaskAndMatchSelectTheRow : Prop :=
  ∀ w : Raw,
    (w &&& 0x0000707F#32 = 0x00000013#32 ↔ ∃ rd rs1 imm, recognise w = .instr (.addi rd rs1 imm)) ∧
    (w &&& 0xFE00707F#32 = 0x00000033#32 ↔ ∃ rd rs1 rs2, recognise w = .instr (.add rd rs1 rs2)) ∧
    (w &&& 0xFE00707F#32 = 0x02000033#32 ↔ ∃ rd rs1 rs2, recognise w = .instr (.mul rd rs1 rs2)) ∧
    (w &&& 0xFE00707F#32 = 0x40000033#32 ↔ ∃ rd rs1 rs2, recognise w = .instr (.sub rd rs1 rs2)) ∧
    (w &&& 0xFE00707F#32 = 0x00001033#32 ↔ ∃ rd rs1 rs2, recognise w = .instr (.sll rd rs1 rs2)) ∧
    (w &&& 0xFE00707F#32 = 0x02004033#32 ↔ ∃ rd rs1 rs2, recognise w = .instr (.div rd rs1 rs2)) ∧
    (w &&& 0xFE00707F#32 = 0x02006033#32 ↔ ∃ rd rs1 rs2, recognise w = .instr (.rem rd rs1 rs2)) ∧
    (w &&& 0xFFFFFFFF#32 = 0x00000000#32 ↔ recognise w = .instr .zeroSentinel)

/-- R57, with the layouts of R52 and R53 as arithmetic on the word: opcode 0x13 gives the I-format with its immediate
sign-extended from 12 bits, opcode 0x33 the R-format, any other opcode the unknown format with the whole word. That the
unknown value carries the whole word is decision D15 (R56, log 13). -/
def Obligations.OpcodeSelectsFormat : Prop :=
  ∀ raw : Raw,
    (raw.toNat % 2 ^ 7 = 0x13 → ∃ rd funct3 rs1 imm, decode raw = .i rd funct3 rs1 imm ∧
      rd.toNat = raw.toNat / 2 ^ 7 % 2 ^ 5 ∧ funct3.toNat = raw.toNat / 2 ^ 12 % 2 ^ 3 ∧
      rs1.toNat = raw.toNat / 2 ^ 15 % 2 ^ 5 ∧
      imm.toInt = if raw.toNat < 2 ^ 31 then (raw.toNat / 2 ^ 20 : Int) else (raw.toNat / 2 ^ 20 : Int) - 2 ^ 12) ∧
    (raw.toNat % 2 ^ 7 = 0x33 → ∃ rd funct3 rs1 rs2 funct7, decode raw = .r rd funct3 rs1 rs2 funct7 ∧
      rd.toNat = raw.toNat / 2 ^ 7 % 2 ^ 5 ∧ funct3.toNat = raw.toNat / 2 ^ 12 % 2 ^ 3 ∧
      rs1.toNat = raw.toNat / 2 ^ 15 % 2 ^ 5 ∧ rs2.toNat = raw.toNat / 2 ^ 20 % 2 ^ 5 ∧
      funct7.toNat = raw.toNat / 2 ^ 25) ∧
    (raw.toNat % 2 ^ 7 ≠ 0x13 → raw.toNat % 2 ^ 7 ≠ 0x33 → decode raw = .unknown raw)

/-- R55: the fields of the U-format as arithmetic on the word, and that no opcode selects it. -/
def Obligations.UpperImmediateFormat : Prop :=
  (∀ raw : Raw, ∃ rd imm, layoutU raw = .u rd imm ∧ rd.toNat = raw.toNat / 2 ^ 7 % 2 ^ 5 ∧
    imm.toInt = if raw.toNat < 2 ^ 31 then (raw.toNat / 2 ^ 12 * 2 ^ 12 : Int)
      else (raw.toNat / 2 ^ 12 * 2 ^ 12 : Int) - 2 ^ 32) ∧
  (∀ raw rd imm, decode raw ≠ .u rd imm)

/-- No word decodes to the S-format, and no word selects the format without a meaning (R54; spec/90_conflicts.md C2). -/
def Obligations.StoreFormatUnreachable : Prop :=
  (∀ raw immLo funct3 rs1 rs2 immHi, decode raw ≠ .s immLo funct3 rs1 rs2 immHi) ∧
  (∀ raw, recognise raw ≠ .unreachableFormat)

/-! The memory path (spec/20_memory.md) -/

/-- R33: a load of a supported width whose bytes lie inside is the little-endian number of its bytes, at any index, and is
below `2^w`. -/
def Obligations.LoadIsLittleEndian : Prop :=
  ∀ (m : MemoryController) (i w : Nat), w = 8 ∨ w = 16 ∨ w = 32 ∨ w = 64 → i + w / 8 ≤ m.capacity →
    m.load i w = .ok (∑ k ∈ Finset.range (w / 8), (m.byte (i + k)).toNat * 2 ^ (8 * k)) ∧
    ∑ k ∈ Finset.range (w / 8), (m.byte (i + k)).toNat * 2 ^ (8 * k) < 2 ^ w

/-- The error results of the memory controller (R32, R34, R35): an unsupported width at any index first, then the upper
bound. That the upper bound faults is decision D4 (log 6), that the width comes first decision D16 (log 11). -/
def Obligations.LoadChecksInOrder : Prop :=
  ∀ (m : MemoryController) (i w : Nat),
    (m.load i w = .err .invalidWidth ↔ ¬ (w = 8 ∨ w = 16 ∨ w = 32 ∨ w = 64)) ∧
    (w = 8 ∨ w = 16 ∨ w = 32 ∨ w = 64 → m.capacity < i + w / 8 → m.load i w = .outOfBounds i w m.capacity)

/-- R36: below the base the bus answers `AddressOutOfRange` at any width, and from the base on it forwards the offset. -/
def Obligations.BusMapsAddresses : Prop :=
  ∀ (b : Bus) (a : Word) (w : Nat),
    (a.toNat < b.base.toNat → b.load a w = .err (.addressOutOfRange a b.base)) ∧
    (b.base.toNat ≤ a.toNat → b.load a w = b.memory.load (a.toNat - b.base.toNat) w)

/-- The views of one place at different widths agree (R41). -/
def Obligations.MixedWidthLoadsAgree : Prop :=
  ∀ (m : MemoryController) (i v : Nat), m.load i 64 = .ok v →
    m.load i 8 = .ok (v % 2 ^ 8) ∧ m.load i 16 = .ok (v % 2 ^ 16) ∧ m.load i 32 = .ok (v % 2 ^ 32) ∧
    m.load (i + 4) 32 = .ok (v / 2 ^ 32)

/-- R45: within the constraints of R5, construction zero-fills to the capacity and overlays the image from offset 0;
whatever the configuration, a longer image makes construction fail. With which error is ConstructionErrors below. -/
def Obligations.ConstructionPlacesImage : Prop :=
  (∀ (p : Config.Params) (image : List Byte), 1 ≤ p.memSize → p.memBase.toNat + p.memSize < 2 ^ 64 →
    image.length ≤ p.memSize → ∃ s, construct p image = .ok s ∧ s.bus.memory.capacity = p.memSize ∧
      (∀ (k : Nat) (h : k < image.length), s.bus.memory.byte k = image[k]) ∧
      (∀ k, image.length ≤ k → s.bus.memory.byte k = 0#8)) ∧
  (∀ (p : Config.Params) (image : List Byte), p.memSize < image.length → ∃ e, construct p image = .error e)

/-- The two errors of construction, each exactly where step 1 of R150 gives it: `ImageTooLarge` where the constraints of R5
hold and the image is longer than the memory (R45, R137), the refusal of the parameters where the constraints fail. The
constraints and the refusal outside them are decision D3, the name `ImageTooLarge` and that no core exists decision D18; the
name `invalidParameters`, and that the parameters are checked before the image, are the model's (log 10). -/
def Obligations.ConstructionErrors : Prop :=
  ∀ (p : Config.Params) (image : List Byte),
    (construct p image = .error .imageTooLarge ↔
      (1 ≤ p.memSize ∧ p.memBase.toNat + p.memSize < 2 ^ 64) ∧ p.memSize < image.length) ∧
    (construct p image = .error .invalidParameters ↔ ¬ (1 ≤ p.memSize ∧ p.memBase.toNat + p.memSize < 2 ^ 64))

/-- The state after reset with any configuration and image (R25, R150). That registers 1 and 3 to 31 are 0 is decision D6
(log 4), that register 2 is one past the last byte decision D5 (log 3), that the latch is `None` decision D10 (log 9). -/
def Obligations.ResetState : Prop :=
  ∀ (p : Config.Params) (image : List Byte) (s : State), construct p image = .ok s →
    s.pc = p.memBase ∧ s.run = .running ∧ s.cause = .none ∧ s.bus.base = p.memBase ∧ s.bus.memory.capacity = p.memSize ∧
    s.divremSigned = p.divremSigned ∧ (s.readReg 2).toNat = p.memBase.toNat + p.memSize ∧ ∀ r, r ≠ 2 → s.readReg r = 0#64

/-- `State.reset` is reset with the default configuration (log 1) and nothing placed: with an image, only the bytes of
memory differ. -/
def Obligations.ResetIsDefaultConstruction : Prop :=
  ∀ image : List Byte, image.length ≤ Config.defaultMemSize → ∃ s, construct Config.defaults image = .ok s ∧
    s.snapshot = State.reset.snapshot ∧ s.bus.base = State.reset.bus.base ∧
    s.bus.memory.capacity = State.reset.bus.memory.capacity ∧ s.divremSigned = State.reset.divremSigned ∧
    (image = [] → s = State.reset)

/-! The instructions (spec/41, 42 and 43) -/

/-- R90: ADDI's encoding, its effect on `x[rd]`, and that nothing else changes. -/
def Obligations.AddiEffect : Prop :=
  (∀ w : Raw, w &&& 0x0000707F#32 = 0x00000013#32 →
    recognise w = .instr (.addi (w.extractLsb' 7 5) (w.extractLsb' 15 5) ((w.extractLsb' 20 12).signExtend 64))) ∧
  (∀ (rd rs1 : RegIdx) (imm : Word) (s : State), ∃ t, exec (.addi rd rs1 imm) s = .next t ∧
    ((t.readReg rd).toNat : Int) = ((s.readReg rs1).toNat + imm.toInt) % 2 ^ 64 ∧ s.SameBut rd t)

/-- R95: ADD's encoding, its effect on `x[rd]`, and that nothing else changes. -/
def Obligations.AddEffect : Prop :=
  (∀ w : Raw, w &&& 0xFE00707F#32 = 0x00000033#32 →
    recognise w = .instr (.add (w.extractLsb' 7 5) (w.extractLsb' 15 5) (w.extractLsb' 20 5))) ∧
  (∀ (rd rs1 rs2 : RegIdx) (s : State), ∃ t, exec (.add rd rs1 rs2) s = .next t ∧
    (t.readReg rd).toNat = ((s.readReg rs1).toNat + (s.readReg rs2).toNat) % 2 ^ 64 ∧ s.SameBut rd t)

/-- R96: SUB's encoding, its effect on `x[rd]`, and that nothing else changes. -/
def Obligations.SubEffect : Prop :=
  (∀ w : Raw, w &&& 0xFE00707F#32 = 0x40000033#32 →
    recognise w = .instr (.sub (w.extractLsb' 7 5) (w.extractLsb' 15 5) (w.extractLsb' 20 5))) ∧
  (∀ (rd rs1 rs2 : RegIdx) (s : State), ∃ t, exec (.sub rd rs1 rs2) s = .next t ∧
    (t.readReg rd).toNat = ((s.readReg rs1).toNat + 2 ^ 64 - (s.readReg rs2).toNat) % 2 ^ 64 ∧ s.SameBut rd t)

/-- R97: SLL's encoding, its effect on `x[rd]` with the amount masked to 6 bits, and that nothing else changes. -/
def Obligations.SllEffect : Prop :=
  (∀ w : Raw, w &&& 0xFE00707F#32 = 0x00001033#32 →
    recognise w = .instr (.sll (w.extractLsb' 7 5) (w.extractLsb' 15 5) (w.extractLsb' 20 5))) ∧
  (∀ (rd rs1 rs2 : RegIdx) (s : State), ∃ t, exec (.sll rd rs1 rs2) s = .next t ∧
    (t.readReg rd).toNat = (s.readReg rs1).toNat * 2 ^ ((s.readReg rs2).toNat % 64) % 2 ^ 64 ∧ s.SameBut rd t)

/-- R105: MUL's encoding, its effect on `x[rd]`, and that nothing else changes. -/
def Obligations.MulEffect : Prop :=
  (∀ w : Raw, w &&& 0xFE00707F#32 = 0x02000033#32 →
    recognise w = .instr (.mul (w.extractLsb' 7 5) (w.extractLsb' 15 5) (w.extractLsb' 20 5))) ∧
  (∀ (rd rs1 rs2 : RegIdx) (s : State), ∃ t, exec (.mul rd rs1 rs2) s = .next t ∧
    (t.readReg rd).toNat = (s.readReg rs1).toNat * (s.readReg rs2).toNat % 2 ^ 64 ∧ s.SameBut rd t)

/-- DIV's encoding and its effect for a divisor other than zero, for both values of `DIVREM_SIGNED`. That the value is `true`
at reset is decision D7 (log 5). -/
def Obligations.DivEffect : Prop :=
  (∀ w : Raw, w &&& 0xFE00707F#32 = 0x02004033#32 →
    recognise w = .instr (.div (w.extractLsb' 7 5) (w.extractLsb' 15 5) (w.extractLsb' 20 5))) ∧
  (∀ (rd rs1 rs2 : RegIdx) (s : State), s.readReg rs2 ≠ 0#64 → ∃ t, exec (.div rd rs1 rs2) s = .next t ∧
    (s.divremSigned = true → ((t.readReg rd).toNat : Int) = (s.readReg rs1).toInt.tdiv (s.readReg rs2).toInt % 2 ^ 64) ∧
    (s.divremSigned = false → (t.readReg rd).toNat = (s.readReg rs1).toNat / (s.readReg rs2).toNat) ∧ s.SameBut rd t)

/-- REM's encoding and its effect for a divisor other than zero, for both values of `DIVREM_SIGNED`. That the value is `true`
at reset is decision D7 (log 5). -/
def Obligations.RemEffect : Prop :=
  (∀ w : Raw, w &&& 0xFE00707F#32 = 0x02006033#32 →
    recognise w = .instr (.rem (w.extractLsb' 7 5) (w.extractLsb' 15 5) (w.extractLsb' 20 5))) ∧
  (∀ (rd rs1 rs2 : RegIdx) (s : State), s.readReg rs2 ≠ 0#64 → ∃ t, exec (.rem rd rs1 rs2) s = .next t ∧
    (s.divremSigned = true → ((t.readReg rd).toNat : Int) =
      ((s.readReg rs1).toInt - (s.readReg rs1).toInt.tdiv (s.readReg rs2).toInt * (s.readReg rs2).toInt) % 2 ^ 64) ∧
    (s.divremSigned = false → (t.readReg rd).toNat =
      (s.readReg rs1).toNat - (s.readReg rs1).toNat / (s.readReg rs2).toNat * (s.readReg rs2).toNat) ∧ s.SameBut rd t)

/-- R111: with a zero divisor DIV and REM both write the dividend, under both values of `DIVREM_SIGNED`, and nothing else
changes. -/
def Obligations.DivisionByZeroWritesDividend : Prop :=
  ∀ (rd rs1 rs2 : RegIdx) (s : State), s.readReg rs2 = 0#64 →
    (∃ t, exec (.div rd rs1 rs2) s = .next t ∧ t.readReg rd = s.readReg rs1 ∧ s.SameBut rd t) ∧
    (∃ t, exec (.rem rd rs1 rs2) s = .next t ∧ t.readReg rd = s.readReg rs1 ∧ s.SameBut rd t)

/-- Quotient times divisor plus remainder is the dividend modulo 2^64, for every divisor other than zero and both values of
`DIVREM_SIGNED` (R107, derived there). -/
def Obligations.QuotientRemainderIdentity : Prop :=
  ∀ (rd rd' rs1 rs2 : RegIdx) (s : State), s.readReg rs2 ≠ 0#64 → ∃ t u,
    exec (.div rd rs1 rs2) s = .next t ∧ exec (.rem rd' rs1 rs2) s = .next u ∧
    t.readReg rd * s.readReg rs2 + u.readReg rd' = s.readReg rs1

/-- On the signed reading (decision D7, log 5) REM's result is zero or has the sign of the dividend, and is smaller in
magnitude than the divisor (R107). -/
def Obligations.RemainderSignAndBound : Prop :=
  ∀ (rd rs1 rs2 : RegIdx) (s : State), s.divremSigned = true → s.readReg rs2 ≠ 0#64 →
    ∃ t, exec (.rem rd rs1 rs2) s = .next t ∧
      (t.readReg rd).toInt.natAbs < (s.readReg rs2).toInt.natAbs ∧
      (t.readReg rd = 0#64 ∨ (0 < (t.readReg rd).toInt ↔ 0 < (s.readReg rs1).toInt))

/-- The one overflow of the signed reading (decision D7, log 5): the most negative dividend over -1 wraps to itself, with
remainder 0 and no fault (R106, R107). -/
def Obligations.SignedDivisionOverflowWraps : Prop :=
  ∀ (rd rs1 rs2 : RegIdx) (s : State), s.divremSigned = true →
    (s.readReg rs1).toInt = -2 ^ 63 → (s.readReg rs2).toInt = -1 →
    (∃ t, exec (.div rd rs1 rs2) s = .next t ∧ t.readReg rd = s.readReg rs1) ∧
    (∃ t, exec (.rem rd rs1 rs2) s = .next t ∧ t.readReg rd = 0#64)

/-- When both operands are below 2^63 the two readings of DIV and REM agree (R110, derived there): the results do not depend
on decision D7 (log 5). -/
def Obligations.SignednessIrrelevantBelow : Prop :=
  ∀ (rd rs1 rs2 : RegIdx) (s : State), (s.readReg rs1).toNat < 2 ^ 63 → (s.readReg rs2).toNat < 2 ^ 63 → ∀ sg : Bool,
    ∃ t u t' u', exec (.div rd rs1 rs2) s = .next t ∧ exec (.div rd rs1 rs2) { s with divremSigned := sg } = .next u ∧
      t.readReg rd = u.readReg rd ∧
      exec (.rem rd rs1 rs2) s = .next t' ∧ exec (.rem rd rs1 rs2) { s with divremSigned := sg } = .next u' ∧
      t'.readReg rd = u'.readReg rd

/-- The sentinel halts the core with cause `InvalidInstruction` and changes no register, no byte and not the pc, which the
fetch has already advanced (R75). The latch is decision D10 (log 9). -/
def Obligations.ZeroSentinelEffect : Prop :=
  ∀ s : State, ∃ t, exec .zeroSentinel s = .next t ∧ t.run = .halted ∧ t.cause = .invalidInstruction ∧ t.pc = s.pc ∧
    s.SameData t

/-- R12: register 0 is ordinary (D13, log 17). A write to it stays, and a later instruction that reads it gets what was
written. -/
def Obligations.RegisterZeroIsOrdinary : Prop :=
  ∀ (rs1 rd : RegIdx) (imm : Word) (s : State), ∃ t u,
    exec (.addi 0 rs1 imm) s = .next t ∧ t.readReg 0 = s.readReg rs1 + imm ∧
    exec (.add rd 0 0) t = .next u ∧ u.readReg rd = (s.readReg rs1 + imm) + (s.readReg rs1 + imm)

/-- `ADDI x0, x0, 0` is a no-op by arithmetic: it leaves the whole state as it was (R64, derived there). -/
def Obligations.NopByArithmetic : Prop :=
  ∀ s : State, exec (.addi 0 0 0) s = .next s

/-- Each of the seven operations writes exactly its destination, and what it writes depends on its source registers and the
configured signedness alone: not on the pc, the run state, the latch, memory or any other register (R14, R84). -/
def Obligations.ResultDependsOnSourcesOnly : Prop :=
  ∀ (i : Instr) (rd : RegIdx), i.dest? = some rd → ∀ s s' : State, s.divremSigned = s'.divremSigned →
    (∀ r ∈ i.sources, s.readReg r = s'.readReg r) →
    ∃ t t', exec i s = .next t ∧ exec i s' = .next t' ∧ t.readReg rd = t'.readReg rd ∧ s.SameBut rd t ∧ s'.SameBut rd t'

/-! The step (spec/40_fetch_and_step.md, spec/60_exceptions.md) -/

/-- R72: the fetch reads the four bytes at the pc as a little-endian word. -/
def Obligations.FetchReadsWordAtPc : Prop :=
  ∀ s : State, s.bus.base.toNat ≤ s.pc.toNat → s.pc.toNat - s.bus.base.toNat + 4 ≤ s.bus.memory.capacity →
    s.fetch = .ok
      ((s.bus.memory.byte (s.pc.toNat - s.bus.base.toNat)).toNat +
        (s.bus.memory.byte (s.pc.toNat - s.bus.base.toNat + 1)).toNat * 2 ^ 8 +
        (s.bus.memory.byte (s.pc.toNat - s.bus.base.toNat + 2)).toNat * 2 ^ 16 +
        (s.bus.memory.byte (s.pc.toNat - s.bus.base.toNat + 3)).toNat * 2 ^ 24)

/-- A step runs the decoded instruction: when the core is Running and the four bytes at the pc decode to an instruction, the
step is that instruction's execution on the state whose pc has advanced by 4, and its event is `NoDiag`, or `HaltedNow`
for the sentinel (R71, R73, R78). The events are decision D11 (log 9). -/
def Obligations.StepRunsDecodedInstruction : Prop :=
  ∀ (s : State) (i : Instr), s.run = .running → s.bus.base.toNat ≤ s.pc.toNat →
    s.pc.toNat - s.bus.base.toNat + 4 ≤ s.bus.memory.capacity →
    decodeBytes [s.bus.memory.byte (s.pc.toNat - s.bus.base.toNat), s.bus.memory.byte (s.pc.toNat - s.bus.base.toNat + 1),
      s.bus.memory.byte (s.pc.toNat - s.bus.base.toNat + 2), s.bus.memory.byte (s.pc.toNat - s.bus.base.toNat + 3)]
      = some (.instr i, []) →
    step s = exec i { s with pc := s.pc + 4 } ∧
    ∃ t, cycle s = .next (t, if i = .zeroSentinel then .haltedNow .invalidInstruction else .noDiag)

/-- R79: a non-zero word of an unrecognised opcode does nothing but produce its diagnostic. The event is
decision D11, the latch that stays `None` decision D10 (log 9). -/
def Obligations.UnknownOpcodeIsNoOp : Prop :=
  ∀ (s : State) (w : Raw), s.run = .running → s.cause = .none → s.fetch = .ok w.toNat → w.toNat ≠ 0 →
    w.toNat % 2 ^ 7 ≠ 0x13 → w.toNat % 2 ^ 7 ≠ 0x33 →
    ∃ t, cycle s = .next (t, .unknownOpcode w) ∧ t.pc = s.pc + 4 ∧ t.run = .running ∧ t.cause = .none ∧ s.SameData t

/-- R80: a word of a recognised opcode with `funct3`, or `(funct3, funct7)`, outside the table does nothing but produce its
diagnostic. The event is decision D11, the latch that stays `None` decision D10 (log 9). -/
def Obligations.UnimplementedIsNoOp : Prop :=
  ∀ (s : State) (w : Raw), s.run = .running → s.cause = .none → s.fetch = .ok w.toNat →
    (w.toNat % 2 ^ 7 = 0x13 ∧ w.toNat / 2 ^ 12 % 2 ^ 3 ≠ 0 ∨
      w.toNat % 2 ^ 7 = 0x33 ∧ (w.toNat / 2 ^ 12 % 2 ^ 3, w.toNat / 2 ^ 25) ∉
        [(0x0, 0x00), (0x0, 0x20), (0x1, 0x00), (0x0, 0x01), (0x4, 0x01), (0x6, 0x01)]) →
    ∃ t, cycle s = .next (t, .unimplementedInstruction w) ∧ t.pc = s.pc + 4 ∧ t.run = .running ∧ t.cause = .none ∧
      s.SameData t

/-- R132: a fetched zero word halts the core with cause `InvalidInstruction`, the pc advanced and no register changed, and
nothing else gives a core that cause. The event `HaltedNow` is decision D11 (R27, R71), the latch decision D10 (log 9). -/
def Obligations.ZeroWordHalts : Prop :=
  (∀ s : State, s.run = .running → s.fetch = .ok 0 →
    ∃ t, cycle s = .next (t, .haltedNow .invalidInstruction) ∧ t.run = .halted ∧ t.cause = .invalidInstruction ∧
      t.pc = s.pc + 4 ∧ s.SameData t) ∧
  (∀ s t : State, step s = .next t → t.cause = .invalidInstruction →
    s.cause = .invalidInstruction ∨ (s.run = .running ∧ s.fetch = .ok 0))

/-- A fetch below the base halts the core with cause `AddressOutOfRange`, holding the pc presented and the base; the pc has
advanced and no register changed; only a fetch below the base does so (R74, R131). The event is decision D11, the latch
decision D10 (log 9). -/
def Obligations.RejectedAddressHalts : Prop :=
  (∀ s : State, s.run = .running → s.pc.toNat < s.bus.base.toNat →
    ∃ t, cycle s = .next (t, .haltedNow (.addressOutOfRange s.pc s.bus.base)) ∧ t.run = .halted ∧
      t.cause = .addressOutOfRange s.pc s.bus.base ∧ t.pc = s.pc + 4 ∧ s.SameData t) ∧
  (∀ (s t : State) (a b : Word), step s = .next t → t.cause = .addressOutOfRange a b →
    s.cause = .addressOutOfRange a b ∨ (s.run = .running ∧ s.pc.toNat < s.bus.base.toNat ∧ a = s.pc ∧ b = s.bus.base))

/-- A step faults exactly when a Running core fetches at or above the base with the last byte past the end of memory, and
the fault names the offset, the width 32 and the capacity (R76, R133). That this is a fault is decision D4 (log 6). -/
def Obligations.FetchPastEndFaults : Prop :=
  ∀ (s : State) (f : Fault), step s = .fault f ↔
    (s.run = .running ∧ s.bus.base.toNat ≤ s.pc.toNat ∧
      s.bus.memory.capacity < s.pc.toNat - s.bus.base.toNat + 4 ∧
      f = .memoryOutOfBounds (s.pc.toNat - s.bus.base.toNat) 32 s.bus.memory.capacity)

/-- A step in Halted changes nothing and reports `Idle`, however often it is taken; so Halted is never left by a step
(R81, decision D9, log 8; the event is decision D11, log 9). -/
def Obligations.HaltedCoreIdles : Prop :=
  ∀ s : State, s.run = .halted → cycle s = .next (s, .idle) ∧ ∀ n, Host.Core.run Sys2Proof.core n s = .next s

/-- R73: every fetch attempt advances the pc by exactly 4, the halting ones included; a step in Running that does not is the
fault `MemoryOutOfBounds`. The advance is modulo 2^64, `u64` in the rule (decision D8, log 7, for the corner). -/
def Obligations.EveryFetchAdvancesPc : Prop :=
  ∀ s : State, s.run = .running →
    (∃ t, step s = .next t ∧ t.pc.toNat = (s.pc.toNat + 4) % 2 ^ 64) ∨
    (∃ i c, step s = .fault (.memoryOutOfBounds i 32 c))

/-- No step is refused: every word has its effect, and the two refusals a cycle could give are unreachable. -/
def Obligations.NoStepIsRefused : Prop :=
  ∀ (s : State) (r : Refusal), step s ≠ .refused r

/-- No step changes memory or the configuration (R20, R40, R48; R11). -/
def Obligations.MemoryAndConfigurationConstant : Prop :=
  ∀ s t : State, step s = .next t → t.bus = s.bus ∧ t.divremSigned = s.divremSigned ∧
    (∀ k, t.bus.memory.byte k = s.bus.memory.byte k) ∧ ∀ a w, t.bus.load a w = s.bus.load a w

/-- The whole machine's register frame: a step writes at most one register, and none unless its event is `NoDiag`; then it is
the destination of the instruction at the pc (R14). The event is decision D11 (log 9). -/
def Obligations.OnlyDestinationRegisterWritten : Prop :=
  ∀ (s t : State) (e : Event), cycle s = .next (t, e) →
    (e ≠ .noDiag → ∀ r, t.readReg r = s.readReg r) ∧
    (e = .noDiag → ∃ w i rd, s.fetch = .ok w ∧ recognise (BitVec.ofNat 32 w) = .instr i ∧ i.dest? = some rd ∧
      ∀ r, r ≠ rd → t.readReg r = s.readReg r)

/-- The event of a step tells what happened (R27; the events are decision D11, log 9), each of the five exactly when:
`Idle` in Halted; `HaltedNow` with the latched cause when the step halts the core; `NoDiag` when a Running core fetched an
instruction with a destination, that is any but the sentinel (R78); `UnknownOpcode` of the word when it fetched a non-zero
word of opcode neither 0x13 nor 0x33 (R79); `UnimplementedInstruction` of the word when it fetched one of opcode 0x13 or
0x33 outside the table (R80). The state is the same with or without the event. -/
def Obligations.EventTellsWhatHappened : Prop :=
  (∀ (s t : State) (e : Event), cycle s = .next (t, e) →
    (e = .idle ↔ s.run = .halted) ∧ (∀ c, e = .haltedNow c ↔ s.run = .running ∧ t.run = .halted ∧ t.cause = c) ∧
    (e = .noDiag ↔ s.run = .running ∧
      ∃ (w : Raw) (i : Instr) (rd : RegIdx), s.fetch = .ok w.toNat ∧ recognise w = .instr i ∧ i.dest? = some rd) ∧
    (∀ w : Raw, e = .unknownOpcode w ↔ s.run = .running ∧ s.fetch = .ok w.toNat ∧ w.toNat ≠ 0 ∧
      w.toNat % 2 ^ 7 ≠ 0x13 ∧ w.toNat % 2 ^ 7 ≠ 0x33) ∧
    (∀ w : Raw, e = .unimplementedInstruction w ↔ s.run = .running ∧ s.fetch = .ok w.toNat ∧
      (w.toNat % 2 ^ 7 = 0x13 ∧ w.toNat / 2 ^ 12 % 2 ^ 3 ≠ 0 ∨
        w.toNat % 2 ^ 7 = 0x33 ∧ (w.toNat / 2 ^ 12 % 2 ^ 3, w.toNat / 2 ^ 25) ∉
          [(0x0, 0x00), (0x0, 0x20), (0x1, 0x00), (0x0, 0x01), (0x4, 0x01), (0x6, 0x01)]))) ∧
  (∀ s t : State, step s = .next t ↔ ∃ e, cycle s = .next (t, e))

/-- The core halts strictly on fetch failure, never on an execute-time diagnostic (R82): a step from Running to Halted fetched
below the base or fetched the zero word. -/
def Obligations.HaltsOnlyOnFetchFailure : Prop :=
  ∀ s t : State, s.run = .running → step s = .next t → t.run = .halted →
    s.pc.toNat < s.bus.base.toNat ∨ s.fetch = .ok 0

/-- Control does not depend on register contents (R120): two cores that agree on everything but the registers and the
signedness of division give the same kind of outcome, the same event (decision D11, log 9), and again agree on everything
else. -/
def Obligations.ControlIndependentOfRegisters : Prop :=
  ∀ s s' : State, s.pc = s'.pc → s.run = s'.run → s.cause = s'.cause → s.bus = s'.bus →
    (∃ t t' e, cycle s = .next (t, e) ∧ cycle s' = .next (t', e) ∧ t.pc = t'.pc ∧ t.run = t'.run ∧ t.cause = t'.cause ∧
      t.bus = t'.bus) ∨
    (∃ f, cycle s = .fault f ∧ cycle s' = .fault f)

/-! Invariants and runs -/

/-- Every step keeps the invariant of a core configured within R5: the constraints hold, memory is in canonical form, the
pc is congruent to the base modulo 4 and between the base and the end of memory (R17), and the latch agrees with the run
state and never holds `AddressOutOfRange` (R19, R131; the latch is decision D10, log 9). -/
def Obligations.StepKeepsInvariant : Prop :=
  ∀ s t : State, s.Inv → step s = .next t → t.Inv

/-- The invariant holds right after reset at the default configuration. -/
def Obligations.ResetHasInvariant : Prop :=
  State.reset.Inv

/-- The invariant holds after reset with every configuration and image that construction accepts. -/
def Obligations.ConstructionHasInvariant : Prop :=
  ∀ (p : Config.Params) (image : List Byte) (s : State), construct p image = .ok s → s.Inv

/-- Every run ends within `floor(MEM_SIZE / 4) + 1` steps, Halted with cause `InvalidInstruction` or in the fault
`MemoryOutOfBounds` (R83, derived there). -/
def Obligations.EveryRunEnds : Prop :=
  ∀ s : State, s.Inv →
    (∃ t, drive (s.bus.memory.capacity / 4 + 1) s = .next t ∧ t.Finished ∧ t.cause = .invalidInstruction) ∨
    (∃ i c, drive (s.bus.memory.capacity / 4 + 1) s = .fault (.memoryOutOfBounds i 32 c))

/-- The core halts at the first zero word from the pc on (R75, derived there), if that word lies inside memory: after as many
steps as there are words up to it, with the pc just past it. -/
def Obligations.RunHaltsAtFirstZeroWord : Prop :=
  ∀ (s : State) (n : Nat), s.Inv → s.run = .running →
    s.fetchIndex + 4 * n + 4 ≤ s.bus.memory.capacity →
    (∀ j < n, ∃ m < 4, s.bus.memory.byte (s.fetchIndex + 4 * j + m) ≠ 0#8) →
    (∀ m < 4, s.bus.memory.byte (s.fetchIndex + 4 * n + m) = 0#8) →
    ∃ t, drive (n + 1) s = .next t ∧ t.Finished ∧ t.cause = .invalidInstruction ∧
      t.pc.toNat = s.pc.toNat + 4 * n + 4

/-- Control is strictly sequential: a core still Running after `k` steps has its pc `4 * k` further on, modulo 2^64 (R16,
derived there; decision D8, log 7, for the wrap). -/
def Obligations.PcAfterSteps : Prop :=
  ∀ (k : Nat) (s t : State), drive k s = .next t → t.run = .running → t.pc.toNat = (s.pc.toNat + 4 * k) % 2 ^ 64
end

