-- ==== Sys2Proof/Laws/Encoding.lean ====
section
/-!
SUPPORT. The words of the I and R layouts as numbers and bit by bit, and the fields of a word as numbers
(spec/30_encoding.md rules R51 to R53).
-/

namespace Sys2Proof

theorem toNat_append_eq {n m : Nat} (x : BitVec n) (y : BitVec m) : (x ++ y).toNat = 2 ^ m * x.toNat + y.toNat := by
  rw [BitVec.toNat_append, Nat.shiftLeft_eq, Nat.mul_comm, ← Nat.two_pow_add_eq_or_of_lt y.isLt]

/-- A word of the R layout as a number (R52). -/
theorem toNat_encodeR (funct7 : BitVec 7) (rs2 rs1 : RegIdx) (funct3 : BitVec 3) (rd : RegIdx) (opcode : BitVec 7) :
    (encodeR funct7 rs2 rs1 funct3 rd opcode).toNat =
      2 ^ 25 * funct7.toNat + 2 ^ 20 * rs2.toNat + 2 ^ 15 * rs1.toNat + 2 ^ 12 * funct3.toNat + 2 ^ 7 * rd.toNat
        + opcode.toNat := by
  refine (toNat_append_eq (n := 25) (m := 7) _ _).trans ?_
  simp only [toNat_append_eq]
  ring

/-- A word of the I layout as a number (R53). -/
theorem toNat_encodeI (imm12 : BitVec 12) (rs1 : RegIdx) (funct3 : BitVec 3) (rd : RegIdx) (opcode : BitVec 7) :
    (encodeI imm12 rs1 funct3 rd opcode).toNat =
      2 ^ 20 * imm12.toNat + 2 ^ 15 * rs1.toNat + 2 ^ 12 * funct3.toNat + 2 ^ 7 * rd.toNat + opcode.toNat := by
  refine (toNat_append_eq (n := 25) (m := 7) _ _).trans ?_
  simp only [toNat_append_eq]
  ring

/-- A word of the R layout bit by bit (R52). -/
theorem getLsbD_encodeR (funct7 : BitVec 7) (rs2 rs1 : RegIdx) (funct3 : BitVec 3) (rd : RegIdx) (opcode : BitVec 7)
    (i : Nat) :
    (encodeR funct7 rs2 rs1 funct3 rd opcode).getLsbD i =
      if i < 7 then opcode.getLsbD i else if i < 12 then rd.getLsbD (i - 7) else if i < 15 then funct3.getLsbD (i - 12)
      else if i < 20 then rs1.getLsbD (i - 15) else if i < 25 then rs2.getLsbD (i - 20) else funct7.getLsbD (i - 25) := by
  refine (BitVec.getLsbD_append (n := 25) (m := 7)).trans ?_
  simp only [BitVec.getLsbD_append]
  split_ifs <;> first | rfl | omega

/-- A word of the I layout bit by bit (R53). -/
theorem getLsbD_encodeI (imm12 : BitVec 12) (rs1 : RegIdx) (funct3 : BitVec 3) (rd : RegIdx) (opcode : BitVec 7)
    (i : Nat) :
    (encodeI imm12 rs1 funct3 rd opcode).getLsbD i =
      if i < 7 then opcode.getLsbD i else if i < 12 then rd.getLsbD (i - 7) else if i < 15 then funct3.getLsbD (i - 12)
      else if i < 20 then rs1.getLsbD (i - 15) else imm12.getLsbD (i - 20) := by
  refine (BitVec.getLsbD_append (n := 25) (m := 7)).trans ?_
  simp only [BitVec.getLsbD_append]
  split_ifs <;> first | rfl | omega

/-- A field of a word as a number: the word shifted down and reduced (R10, R51). -/
theorem toNat_field (raw : Raw) (lo width : Nat) : (raw.extractLsb' lo width).toNat = raw.toNat / 2 ^ lo % 2 ^ width := by
  rw [BitVec.extractLsb'_toNat, Nat.shiftRight_eq_div_pow]

/-- A word is the R layout of its own fields (R51, R52). -/
theorem encodeR_fields (w : Raw) :
    encodeR (funct7Of w) (rs2Of w) (rs1Of w) (funct3Of w) (rdOf w) (opcodeOf w) = w := by
  refine BitVec.eq_of_toNat_eq ?_
  have hw := w.isLt
  rw [toNat_encodeR]
  simp only [opcodeOf, rdOf, funct3Of, rs1Of, rs2Of, funct7Of, toNat_field]
  omega

/-- A word is the I layout of its own fields (R51, R53). -/
theorem encodeI_fields (w : Raw) :
    encodeI (w.extractLsb' 20 12) (rs1Of w) (funct3Of w) (rdOf w) (opcodeOf w) = w := by
  refine BitVec.eq_of_toNat_eq ?_
  have hw := w.isLt
  rw [toNat_encodeI]
  simp only [opcodeOf, rdOf, funct3Of, rs1Of, toNat_field]
  omega

/-- The fields of a word of the R layout (R51, R52). -/
theorem fields_encodeR (funct7 : BitVec 7) (rs2 rs1 : RegIdx) (funct3 : BitVec 3) (rd : RegIdx) (opcode : BitVec 7) :
    opcodeOf (encodeR funct7 rs2 rs1 funct3 rd opcode) = opcode ∧ rdOf (encodeR funct7 rs2 rs1 funct3 rd opcode) = rd ∧
    funct3Of (encodeR funct7 rs2 rs1 funct3 rd opcode) = funct3 ∧ rs1Of (encodeR funct7 rs2 rs1 funct3 rd opcode) = rs1 ∧
    rs2Of (encodeR funct7 rs2 rs1 funct3 rd opcode) = rs2 ∧ funct7Of (encodeR funct7 rs2 rs1 funct3 rd opcode) = funct7 := by
  refine ⟨?_, ?_, ?_, ?_, ?_, ?_⟩ <;> refine BitVec.eq_of_toNat_eq ?_ <;>
    simp only [opcodeOf, rdOf, funct3Of, rs1Of, rs2Of, funct7Of, toNat_field, toNat_encodeR] <;> omega

/-- The fields of a word of the I layout (R51, R53). -/
theorem fields_encodeI (imm12 : BitVec 12) (rs1 : RegIdx) (funct3 : BitVec 3) (rd : RegIdx) (opcode : BitVec 7) :
    opcodeOf (encodeI imm12 rs1 funct3 rd opcode) = opcode ∧ rdOf (encodeI imm12 rs1 funct3 rd opcode) = rd ∧
    funct3Of (encodeI imm12 rs1 funct3 rd opcode) = funct3 ∧ rs1Of (encodeI imm12 rs1 funct3 rd opcode) = rs1 ∧
    (encodeI imm12 rs1 funct3 rd opcode).extractLsb' 20 12 = imm12 := by
  refine ⟨?_, ?_, ?_, ?_, ?_⟩ <;> refine BitVec.eq_of_toNat_eq ?_ <;>
    simp only [opcodeOf, rdOf, funct3Of, rs1Of, toNat_field, toNat_encodeI] <;> omega

/-- Sign extension keeps the low bits (R53). -/
theorem low_signExtend (v : BitVec 12) : (v.signExtend 64).extractLsb' 0 12 = v := by
  refine BitVec.eq_of_getLsbD_eq fun i hi => ?_
  have h : i < 64 := by omega
  simp only [BitVec.getLsbD_extractLsb', BitVec.getLsbD_signExtend, Nat.zero_add]
  simp [hi, h]

/-- The opcode as the word's number modulo 2^7 (R51). -/
theorem opcodeOf_eq_iff (w : Raw) (v : BitVec 7) : opcodeOf w = v ↔ w.toNat % 2 ^ 7 = v.toNat := by
  rw [← BitVec.toNat_inj, opcodeOf, toNat_field, Nat.pow_zero, Nat.div_one]

/-- `funct3` as arithmetic on the word (R51). -/
theorem funct3Of_eq_iff (w : Raw) (v : BitVec 3) : funct3Of w = v ↔ w.toNat / 2 ^ 12 % 2 ^ 3 = v.toNat := by
  rw [← BitVec.toNat_inj, funct3Of, toNat_field]

/-- `funct7` as arithmetic on the word, whose top field it is (R51). -/
theorem funct7Of_eq_iff (w : Raw) (v : BitVec 7) : funct7Of w = v ↔ w.toNat / 2 ^ 25 = v.toNat := by
  rw [← BitVec.toNat_inj, funct7Of, toNat_field, Nat.mod_eq_of_lt (by have := w.isLt; omega)]

/-- What a word of opcode 0x13 selects (R57, R59). -/
theorem recognise_opImm {w : Raw} (h : opcodeOf w = 0x13#7) :
    recognise w = if funct3Of w = 0#3 then .instr (.addi (rdOf w) (rs1Of w) (immIOf w)) else .unimplemented w := by
  have h0 : w ≠ 0#32 := by
    rintro rfl
    exact absurd h (by decide)
  simp [recognise, h0, decode, h, layoutI, select]

/-- What a word of opcode 0x33 selects (R57, R58). -/
theorem recognise_op {w : Raw} (h : opcodeOf w = 0x33#7) :
    recognise w = selectR w (rdOf w) (funct3Of w) (rs1Of w) (rs2Of w) (funct7Of w) := by
  have h0 : w ≠ 0#32 := by
    rintro rfl
    exact absurd h (by decide)
  simp [recognise, h0, decode, h, layoutR, select]

/-- What a non-zero word of any other opcode selects (R57, R63). -/
theorem recognise_other {w : Raw} (h0 : w ≠ 0#32) (h : opcodeOf w ≠ 0x13#7) (h' : opcodeOf w ≠ 0x33#7) :
    recognise w = .unknown w := by
  simp [recognise, h0, decode, h, h', select]

/-- The words of the unknown format: non-zero, of neither opcode (R63). -/
theorem recognise_unknown_iff (w : Raw) :
    recognise w = .unknown w ↔ w ≠ 0#32 ∧ opcodeOf w ≠ 0x13#7 ∧ opcodeOf w ≠ 0x33#7 := by
  refine ⟨fun h => ⟨?_, fun ho => ?_, fun ho => ?_⟩, fun ⟨h0, h1, h2⟩ => recognise_other h0 h1 h2⟩
  · rintro rfl
    simp [recognise] at h
  · rw [recognise_opImm ho] at h
    split_ifs at h
  · rw [recognise_op ho, selectR] at h
    split_ifs at h

/-- The words of a recognised opcode that select no row of the table (R62). -/
theorem recognise_unimplemented_iff (w : Raw) :
    recognise w = .unimplemented w ↔
      opcodeOf w = 0x13#7 ∧ funct3Of w ≠ 0x0#3 ∨
      opcodeOf w = 0x33#7 ∧ (funct3Of w, funct7Of w) ∉ [(0x0#3, 0x00#7), (0x0#3, 0x20#7), (0x1#3, 0x00#7),
        (0x0#3, 0x01#7), (0x4#3, 0x01#7), (0x6#3, 0x01#7)] := by
  by_cases h1 : opcodeOf w = 0x13#7
  · by_cases h3 : funct3Of w = 0x0#3 <;> simp [recognise_opImm h1, h1, h3]
  · by_cases h2 : opcodeOf w = 0x33#7
    · simp only [recognise_op h2, h2, selectR, List.mem_cons, Prod.mk.injEq, List.not_mem_nil, or_false]
      split_ifs <;> simp_all
    · by_cases h0 : w = 0#32
      · subst h0
        simp [recognise, opcodeOf]
      · simp [recognise_other h0 h1 h2, h1, h2]

/-- A word that selects the unknown format is the word it carries (R56, R63). -/
theorem eq_of_recognise_unknown {w raw : Raw} (h : recognise w = .unknown raw) : raw = w := by
  unfold recognise decode layoutI layoutR select selectR at h
  split_ifs at h <;> dsimp only at h
  all_goals try split_ifs at h
  injection h with h
  exact h.symm

/-- A word that selects no row under its opcode is the word reported (R62). -/
theorem eq_of_recognise_unimplemented {w raw : Raw} (h : recognise w = .unimplemented raw) : raw = w := by
  unfold recognise decode layoutI layoutR select selectR at h
  split_ifs at h <;> dsimp only at h
  all_goals (split_ifs at h; injection h with h; exact h.symm)

/-- Only the zero word is the sentinel (R61). -/
theorem eq_zero_of_recognise {w : Raw} (h : recognise w = .instr .zeroSentinel) : w = 0#32 := by
  by_contra h0
  unfold recognise decode layoutI layoutR select selectR at h
  rw [if_neg h0] at h
  split_ifs at h <;> dsimp only at h <;> split_ifs at h <;> simp at h

/-- The word of an instruction given by the opcode table's numbering. -/
theorem tableWord_toNat (w : Raw) : tableWord 32 w.toNat = w := by
  refine BitVec.eq_of_toNat_eq ?_
  have := w.isLt
  simp only [tableWord, BitVec.toNat_ofNat]
  omega

end Sys2Proof
end

