-- ==== Sys2Proof/Laws/Memory.lean ====
section
/-!
SUPPORT. Laws of the byte order, the memory array, the memory controller and the bus: read after write, the canonical form,
and the outcomes of a load.
-/

namespace Sys2Proof

/-! Byte order -/

theorem leNat_cons (b : Byte) (bs : List Byte) : leNat (b :: bs) = b.toNat + 2 ^ 8 * leNat bs := rfl

/-- A sequence of `n` bytes spells a number below `2^(8n)`. -/
theorem leNat_lt (bs : List Byte) : leNat bs < 2 ^ (8 * bs.length) := by
  induction bs with
  | nil => simp [leNat]
  | cons b bs ih =>
    have hb := b.isLt
    rw [leNat_cons, List.length_cons, Nat.mul_succ, Nat.pow_add]
    omega

/-- Appending bytes adds them above. -/
theorem leNat_append (as bs : List Byte) : leNat (as ++ bs) = leNat as + 2 ^ (8 * as.length) * leNat bs := by
  induction as with
  | nil => simp [leNat]
  | cons a as ih =>
    rw [List.cons_append, leNat_cons, leNat_cons, ih, List.length_cons, Nat.mul_succ, Nat.pow_add]
    ring

@[simp] theorem leBytes_length (n v : Nat) : (leBytes n v).length = n := by
  induction n generalizing v with
  | zero => rfl
  | succ n ih => simp [leBytes, ih]

/-- The bytes of a number spell it back. -/
theorem leNat_leBytes (n v : Nat) (h : v < 2 ^ (8 * n)) : leNat (leBytes n v) = v := by
  induction n generalizing v with
  | zero => simp at h; simp [leBytes, leNat, h]
  | succ n ih =>
    have hv : v / 2 ^ 8 < 2 ^ (8 * n) := by
      rw [Nat.mul_succ, Nat.pow_add] at h
      exact Nat.div_lt_of_lt_mul (by omega)
    rw [leBytes, leNat_cons, ih _ hv, BitVec.toNat_ofNat]
    omega

end Sys2Proof

namespace Sys2Proof.Machine

/-! The memory array -/

/-- Every listed index is above a bound. -/
theorem cellAt_eq_zero (cells : List Host.Cell) (k : Nat) (h : ∀ c ∈ cells, k < c.1) : cellAt cells k = 0#8 := by
  induction cells with
  | nil => rfl
  | cons c cells ih =>
    have hc := h c (by simp)
    rw [cellAt, if_neg (by omega)]
    exact ih fun d hd => h d (by simp [hd])

/-- Read after write on a canonical list. -/
theorem cellAt_setCell (cells : List Host.Cell) (h : cells.Pairwise fun c d => c.1 < d.1) (k l : Nat) (v : Byte) :
    cellAt (setCell cells k v) l = if l = k then v else cellAt cells l := by
  induction cells with
  | nil =>
    by_cases hv : v = 0#8 <;> by_cases hl : l = k
    all_goals simp [setCell, cellAt, hv, hl, eq_comm (a := k) (b := l)]
  | cons c cells ih =>
    obtain ⟨j, b⟩ := c
    obtain ⟨hj, hp⟩ := List.pairwise_cons.mp h
    have ih := ih hp
    have below : ∀ m ≤ j, cellAt cells m = 0#8 := fun m hm =>
      cellAt_eq_zero _ _ fun d hd => lt_of_le_of_lt hm (hj d hd)
    rcases lt_trichotomy k j with hk | rfl | hk
    · rw [setCell, if_pos hk]
      by_cases hl : l = k
      · subst hl
        by_cases hv : v = 0#8
        · simp [hv, cellAt, show ¬ j = l by omega, below l hk.le]
        · simp [hv, cellAt]
      · by_cases hv : v = 0#8 <;> simp [hv, cellAt, hl, Ne.symm hl]
    · rw [setCell, if_neg (lt_irrefl _), if_pos rfl]
      by_cases hl : l = k
      · subst hl
        by_cases hv : v = 0#8
        · simp [hv, below l le_rfl]
        · simp [hv, cellAt]
      · by_cases hv : v = 0#8 <;> simp [hv, cellAt, hl, Ne.symm hl]
    · rw [setCell, if_neg (by omega), if_neg (by omega), cellAt, ih, cellAt]
      by_cases hjl : j = l
      · simp [hjl, show ¬ l = k by omega]
      · simp [hjl]

/-- What a write lists: the new cell or an old one. -/
theorem mem_setCell {cells : List Host.Cell} {k : Nat} {v : Byte} {c : Host.Cell} (h : c ∈ setCell cells k v) :
    (c = (k, v) ∧ v ≠ 0#8) ∨ c ∈ cells := by
  induction cells with
  | nil => by_cases hv : v = 0#8 <;> simp_all [setCell]
  | cons d cells ih =>
    obtain ⟨j, b⟩ := d
    rw [setCell] at h
    by_cases hv : v = 0#8 <;> split_ifs at h <;> simp_all <;> tauto

/-- A write keeps the indices rising. -/
theorem setCell_pairwise {cells : List Host.Cell} (h : cells.Pairwise fun c d => c.1 < d.1) (k : Nat) (v : Byte) :
    (setCell cells k v).Pairwise fun c d => c.1 < d.1 := by
  induction cells with
  | nil => by_cases hv : v = 0#8 <;> simp [setCell, hv]
  | cons d cells ih =>
    obtain ⟨j, b⟩ := d
    obtain ⟨hj, hp⟩ := List.pairwise_cons.mp h
    rw [setCell]
    by_cases hkj : k < j
    · by_cases hv : v = 0#8
      · simpa [hkj, hv] using ⟨fun a b' hm => hj _ hm, hp⟩
      · simp only [hkj, hv, if_true, if_false]
        refine List.pairwise_cons.mpr ⟨fun c hc => ?_, h⟩
        rcases List.mem_cons.mp hc with rfl | hc
        · exact hkj
        · exact lt_trans hkj (hj c hc)
    · by_cases hk : k = j
      · subst hk
        by_cases hv : v = 0#8
        · simpa [hv] using hp
        · simpa [hv] using ⟨fun a b' hm => hj _ hm, hp⟩
      · simp only [hkj, hk, if_false]
        refine List.pairwise_cons.mpr ⟨fun c hc => ?_, ih hp⟩
        rcases mem_setCell hc with ⟨rfl, -⟩ | hc
        · show j < k
          omega
        · exact hj c hc

theorem MemoryController.wf_iff (m : MemoryController) :
    m.wf = true ↔ (m.cells.Pairwise fun c d => c.1 < d.1) ∧ ∀ c ∈ m.cells, c.1 < m.capacity ∧ c.2 ≠ 0#8 := by
  simp [MemoryController.wf]

@[simp] theorem MemoryController.place_capacity (m : MemoryController) (k : Nat) (v : Byte) :
    (m.place k v).capacity = m.capacity := rfl

@[simp] theorem MemoryController.overlay_capacity (m : MemoryController) (offset : Nat) (bs : List Byte) :
    (m.overlay offset bs).capacity = m.capacity := by
  induction bs generalizing m offset with
  | nil => rfl
  | cons b bs ih => simp [MemoryController.overlay, ih]

/-- Placing a byte inside the array keeps the canonical form. -/
theorem MemoryController.place_wf {m : MemoryController} (h : m.wf = true) {k : Nat} (hk : k < m.capacity) (v : Byte) :
    (m.place k v).wf = true := by
  obtain ⟨hp, hc⟩ := (wf_iff m).mp h
  refine (wf_iff _).mpr ⟨setCell_pairwise hp k v, fun c hm => ?_⟩
  rcases mem_setCell hm with ⟨rfl, hv⟩ | hm
  · exact ⟨hk, hv⟩
  · exact hc c hm

/-- Read after write of the memory array. -/
theorem MemoryController.byte_place {m : MemoryController} (h : m.wf = true) (k l : Nat) (v : Byte) :
    (m.place k v).byte l = if l = k then v else m.byte l :=
  cellAt_setCell _ ((wf_iff m).mp h).1 k l v

/-- Placing bytes inside the array keeps the canonical form. -/
theorem MemoryController.overlay_wf {m : MemoryController} (h : m.wf = true) {offset : Nat} {bs : List Byte}
    (hb : offset + bs.length ≤ m.capacity) : (m.overlay offset bs).wf = true := by
  induction bs generalizing m offset with
  | nil => exact h
  | cons b bs ih =>
    rw [List.length_cons] at hb
    exact ih (place_wf h (by omega) b) (by rw [place_capacity]; omega)

/-- What the array reads after bytes were placed from an offset on (R45). -/
theorem MemoryController.byte_overlay {m : MemoryController} (h : m.wf = true) {offset : Nat} {bs : List Byte}
    (hb : offset + bs.length ≤ m.capacity) (k : Nat) :
    (m.overlay offset bs).byte k =
      if hk : offset ≤ k ∧ k < offset + bs.length then bs[k - offset]'(by omega) else m.byte k := by
  induction bs generalizing m offset with
  | nil => simp [MemoryController.overlay]
  | cons b bs ih =>
    simp only [List.length_cons] at *
    rw [MemoryController.overlay, ih (place_wf h (by omega) b) (by rw [place_capacity]; omega), byte_place h]
    by_cases h1 : k = offset
    · subst h1
      simp
    · by_cases h2 : offset + 1 ≤ k ∧ k < offset + 1 + bs.length
      · obtain ⟨j, rfl⟩ : ∃ j, k = offset + 1 + j := ⟨k - (offset + 1), by omega⟩
        rw [dif_pos h2, dif_pos (by omega)]
        simp [show offset + 1 + j - offset = j + 1 by omega]
      · rw [dif_neg h2, dif_neg (by omega), if_neg h1]

/-! The memory controller and the bus -/

@[simp] theorem MemoryController.bytes_length (m : MemoryController) (i n : Nat) : (m.bytes i n).length = n := by
  induction n generalizing i with
  | zero => rfl
  | succ n ih => simp [MemoryController.bytes, ih]

theorem MemoryController.bytes_add (m : MemoryController) (i n k : Nat) :
    m.bytes i (n + k) = m.bytes i n ++ m.bytes (i + n) k := by
  induction n generalizing i with
  | zero => simp [MemoryController.bytes]
  | succ n ih => simp [Nat.succ_add, MemoryController.bytes, ih, Nat.add_assoc]

theorem MemoryController.bytes_getElem (m : MemoryController) (i n k : Nat) (h : k < (m.bytes i n).length) :
    (m.bytes i n)[k] = m.byte (i + k) := by
  induction n generalizing i k with
  | zero => simp [MemoryController.bytes] at h
  | succ n ih =>
    cases k with
    | zero => simp [MemoryController.bytes]
    | succ k => simp [MemoryController.bytes, ih, Nat.add_assoc, Nat.add_comm 1 k]

/-- Bytes placed inside the array read back. -/
theorem MemoryController.bytes_overlay {m : MemoryController} (h : m.wf = true) {i : Nat} {bs : List Byte}
    (hb : i + bs.length ≤ m.capacity) : (m.overlay i bs).bytes i bs.length = bs := by
  refine List.ext_getElem (bytes_length _ _ _) fun k h1 h2 => ?_
  rw [bytes_getElem, byte_overlay h hb, dif_pos (by omega)]
  simp

/-- Every outcome of a load at a supported width (R32). -/
theorem MemoryController.load_of_mem (m : MemoryController) {i w : Nat} (hw : w ∈ Config.widths) :
    m.load i w = if i + w / 8 ≤ m.capacity then .ok (leNat (m.bytes i (w / 8))) else .outOfBounds i w m.capacity := by
  simp [MemoryController.load, hw]

/-- A successful load: the width is supported, every byte lies inside, and the value is the bytes' (R32, R33). -/
theorem MemoryController.load_ok {m : MemoryController} {i w v : Nat} (h : m.load i w = .ok v) :
    w ∈ Config.widths ∧ i + w / 8 ≤ m.capacity ∧ v = leNat (m.bytes i (w / 8)) := by
  unfold MemoryController.load at h
  split_ifs at h with h1 h2
  exact ⟨h1, h2, by injection h with h; exact h.symm⟩

/-- The memory controller never answers `AddressOutOfRange` (R32: it is the bus's). -/
theorem MemoryController.load_ne_addressOutOfRange (m : MemoryController) (i w : Nat) (a b : Word) :
    m.load i w ≠ .err (.addressOutOfRange a b) := by
  unfold MemoryController.load
  split_ifs <;> simp

theorem Bus.load_below (b : Bus) {a : Word} (h : a < b.base) (w : Nat) :
    b.load a w = .err (.addressOutOfRange a b.base) := by
  simp [Bus.load, h]

theorem Bus.load_above (b : Bus) {a : Word} (h : ¬ a < b.base) (w : Nat) :
    b.load a w = b.memory.load (a - b.base).toNat w := by
  simp [Bus.load, h]

/-- The checked constraints are those of R5 (decision D3). -/
theorem valid_iff (p : Config.Params) : p.valid = true ↔ 1 ≤ p.memSize ∧ p.memBase.toNat + p.memSize < 2 ^ 64 := by
  simp [Config.Params.valid]

/-- Everything construction that succeeds gives (R150). -/
theorem construct_ok {p : Config.Params} {image : List Byte} {s : State} (h : construct p image = .ok s) :
    p.valid = true ∧ image.length ≤ p.memSize ∧
      s = { x := regsReset p, pc := p.memBase, run := .running, cause := .none, divremSigned := p.divremSigned
            bus := { base := p.memBase, memory := memoryReset p.memSize image } } := by
  unfold construct at h
  split_ifs at h with h1 h2
  cases h
  exact ⟨by simpa using h1, by omega, rfl⟩

end Sys2Proof.Machine
end

