-- ==== Sys2Proof/Laws/State.lean ====
section
/-!
SUPPORT. Field lemmas of the state's updates, one per field per update, and the laws of the register file.
-/

namespace Sys2Proof.Machine

@[simp] theorem State.writeReg_pc (s : State) (i : RegIdx) (v : Word) : (s.writeReg i v).pc = s.pc := rfl
@[simp] theorem State.writeReg_run (s : State) (i : RegIdx) (v : Word) : (s.writeReg i v).run = s.run := rfl
@[simp] theorem State.writeReg_cause (s : State) (i : RegIdx) (v : Word) : (s.writeReg i v).cause = s.cause := rfl
@[simp] theorem State.writeReg_bus (s : State) (i : RegIdx) (v : Word) : (s.writeReg i v).bus = s.bus := rfl
@[simp] theorem State.writeReg_divremSigned (s : State) (i : RegIdx) (v : Word) :
    (s.writeReg i v).divremSigned = s.divremSigned := rfl

@[simp] theorem State.advancePc_x (s : State) : s.advancePc.x = s.x := rfl
@[simp] theorem State.advancePc_pc (s : State) : s.advancePc.pc = s.pc + 4 := rfl
@[simp] theorem State.advancePc_run (s : State) : s.advancePc.run = s.run := rfl
@[simp] theorem State.advancePc_cause (s : State) : s.advancePc.cause = s.cause := rfl
@[simp] theorem State.advancePc_bus (s : State) : s.advancePc.bus = s.bus := rfl
@[simp] theorem State.advancePc_divremSigned (s : State) : s.advancePc.divremSigned = s.divremSigned := rfl
@[simp] theorem State.advancePc_readReg (s : State) (r : RegIdx) : s.advancePc.readReg r = s.readReg r := rfl

@[simp] theorem State.halt_x (s : State) (c : HaltCause) : (s.halt c).x = s.x := rfl
@[simp] theorem State.halt_pc (s : State) (c : HaltCause) : (s.halt c).pc = s.pc := rfl
@[simp] theorem State.halt_run (s : State) (c : HaltCause) : (s.halt c).run = .halted := rfl
@[simp] theorem State.halt_cause (s : State) (c : HaltCause) : (s.halt c).cause = c := rfl
@[simp] theorem State.halt_bus (s : State) (c : HaltCause) : (s.halt c).bus = s.bus := rfl
@[simp] theorem State.halt_divremSigned (s : State) (c : HaltCause) : (s.halt c).divremSigned = s.divremSigned := rfl
@[simp] theorem State.halt_readReg (s : State) (c : HaltCause) (r : RegIdx) : (s.halt c).readReg r = s.readReg r := rfl

/-- Read after write of the register file (R12, R13): no two registers alias and none is special. -/
theorem State.readReg_writeReg (s : State) (i j : RegIdx) (v : Word) :
    (s.writeReg i v).readReg j = if i = j then v else s.readReg j := by
  simp [State.writeReg, State.readReg, Vector.getElem_set, BitVec.toNat_inj]

@[simp] theorem State.readReg_writeReg_self (s : State) (i : RegIdx) (v : Word) :
    (s.writeReg i v).readReg i = v := by
  simp [State.readReg_writeReg]

theorem State.readReg_writeReg_ne (s : State) {i j : RegIdx} (v : Word) (h : j ≠ i) :
    (s.writeReg i v).readReg j = s.readReg j := by
  simp [State.readReg_writeReg, Ne.symm h]

end Sys2Proof.Machine
end

