-- ==== Sys2Proof/Laws/Step.lean ====
section
/-!
SUPPORT. What an instruction can do, what a fetch can answer, and what a cycle can do, each said once.
-/

namespace Sys2Proof.Machine

/-- Everything an instruction can do: the sentinel halts, every other instruction writes its one register (R75, R84). -/
theorem exec_cases {i : Instr} {s t : State} (h : exec i s = .next t) :
    (i = .zeroSentinel ∧ t = s.halt .invalidInstruction) ∨ ∃ rd v, i.dest? = some rd ∧ t = s.writeReg rd v := by
  cases i <;> (injection h with h; subst h)
  case zeroSentinel => exact .inl ⟨rfl, rfl⟩
  all_goals exact .inr ⟨_, _, rfl, rfl⟩

/-- Every instruction answers a next state. -/
theorem exec_next (i : Instr) (s : State) : ∃ t, exec i s = .next t := by
  cases i <;> exact ⟨_, rfl⟩

/-- The three answers of the bus to a fetch (R72, R74, R76). -/
theorem fetch_cases (s : State) :
    (s.pc < s.bus.base ∧ s.fetch = .err (.addressOutOfRange s.pc s.bus.base)) ∨
    (¬ s.pc < s.bus.base ∧ s.bus.memory.capacity < (s.pc - s.bus.base).toNat + 4 ∧
      s.fetch = .outOfBounds (s.pc - s.bus.base).toNat 32 s.bus.memory.capacity) ∨
    (¬ s.pc < s.bus.base ∧ (s.pc - s.bus.base).toNat + 4 ≤ s.bus.memory.capacity ∧
      s.fetch = .ok (leNat (s.bus.memory.bytes (s.pc - s.bus.base).toNat 4))) := by
  by_cases hb : s.pc < s.bus.base
  · exact .inl ⟨hb, Bus.load_below _ hb _⟩
  · have hl : s.fetch = _ := (Bus.load_above s.bus hb 32).trans (MemoryController.load_of_mem _ (by decide))
    by_cases hc : (s.pc - s.bus.base).toNat + 4 ≤ s.bus.memory.capacity
    · exact .inr (.inr ⟨hb, hc, hl.trans (if_pos hc)⟩)
    · exact .inr (.inl ⟨hb, by omega, hl.trans (if_neg hc)⟩)

/-- No word decodes to the S or U layout, so no word selects the meaningless format (R54, R55, R57). -/
theorem recognise_ne_unreachableFormat (w : Raw) : recognise w ≠ .unreachableFormat := by
  unfold recognise decode layoutI layoutR select selectR
  split_ifs
  · simp
  · dsimp only
    split_ifs <;> simp
  · dsimp only
    split_ifs <;> simp
  · simp

/-- Decode and execute of any word answers a next state (R71, R77 to R80). -/
theorem executeWord_next (w : Raw) (s : State) : ∃ r, executeWord w s = .next r := by
  unfold executeWord
  cases h : recognise w with
  | instr i =>
    obtain ⟨t, ht⟩ := exec_next i s
    exact ⟨(t, executedEvent t), by simp [ht, withEvent]⟩
  | unimplemented raw => exact ⟨_, rfl⟩
  | unknown raw => exact ⟨_, rfl⟩
  | unreachableFormat => exact absurd h (recognise_ne_unreachableFormat _)

theorem cycle_halted {s : State} (h : s.run = .halted) : cycle s = .next (s, .idle) := by
  simp [cycle, h]

theorem cycle_running {s : State} (h : s.run = .running) : cycle s = afterFetch s.fetch s := by
  simp [cycle, h]

/-- The event of an executed instruction, from a Running state: `HaltedNow` for the sentinel, `NoDiag` for every other (R27,
R78). -/
theorem executedEvent_eq {i : Instr} {s t : State} (hr : s.run = .running) (h : exec i s = .next t) :
    executedEvent t = if i.dest? = none then .haltedNow .invalidInstruction else .noDiag := by
  rcases exec_cases h with ⟨rfl, rfl⟩ | ⟨rd, v, hd, rfl⟩
  · rfl
  · simp [executedEvent, hr, hd]

/-- Everything a cycle that answers a next state can have done, with its event (R71, R78 to R81). -/
theorem cycle_cases {s t : State} {e : Event} (h : cycle s = .next (t, e)) :
    (s.run = .halted ∧ t = s ∧ e = .idle) ∨
    (s.run = .running ∧ s.pc < s.bus.base ∧ t = s.advancePc.halt (.addressOutOfRange s.pc s.bus.base) ∧
      e = .haltedNow (.addressOutOfRange s.pc s.bus.base)) ∨
    (s.run = .running ∧ ¬ s.pc < s.bus.base ∧ (s.pc - s.bus.base).toNat + 4 ≤ s.bus.memory.capacity ∧
      ∃ w : Raw, s.fetch = .ok w.toNat ∧
        ((∃ i, recognise w = .instr i ∧ exec i s.advancePc = .next t ∧
            e = if i.dest? = none then .haltedNow .invalidInstruction else .noDiag) ∨
          (recognise w = .unimplemented w ∧ t = s.advancePc ∧ e = .unimplementedInstruction w) ∨
          (recognise w = .unknown w ∧ t = s.advancePc ∧ e = .unknownOpcode w))) := by
  cases hr : s.run with
  | halted =>
    rw [cycle_halted hr] at h
    cases h
    exact .inl ⟨rfl, rfl, rfl⟩
  | running =>
    rw [cycle_running hr] at h
    rcases fetch_cases s with ⟨hb, hf⟩ | ⟨-, -, hf⟩ | ⟨hb, hc, hf⟩ <;> rw [hf] at h
    · cases h
      exact .inr (.inl ⟨rfl, hb, rfl, rfl⟩)
    · cases h
    · have hl : leNat (s.bus.memory.bytes (s.pc - s.bus.base).toNat 4) < 2 ^ 32 := by
        have := leNat_lt (s.bus.memory.bytes (s.pc - s.bus.base).toNat 4)
        rwa [MemoryController.bytes_length] at this
      refine .inr (.inr ⟨rfl, hb, hc, BitVec.ofNat 32 (leNat (s.bus.memory.bytes (s.pc - s.bus.base).toNat 4)), ?_, ?_⟩)
      · rw [hf, BitVec.toNat_ofNat, Nat.mod_eq_of_lt hl]
      · rw [afterFetch, executeWord] at h
        cases hw : recognise (BitVec.ofNat 32 (leNat (s.bus.memory.bytes (s.pc - s.bus.base).toNat 4))) with
        | instr i =>
          obtain ⟨u, hu⟩ := exec_next i s.advancePc
          rw [hw] at h
          simp only [hu, withEvent] at h
          cases h
          exact .inl ⟨i, rfl, hu, executedEvent_eq (s := s.advancePc) hr hu⟩
        | unimplemented raw =>
          have := eq_of_recognise_unimplemented hw
          subst this
          rw [hw] at h
          cases h
          exact .inr (.inl ⟨rfl, rfl, rfl⟩)
        | unknown raw =>
          have := eq_of_recognise_unknown hw
          subst this
          rw [hw] at h
          cases h
          exact .inr (.inr ⟨rfl, rfl, rfl⟩)
        | unreachableFormat => exact absurd hw (recognise_ne_unreachableFormat _)

/-- A step that answers a next state is its cycle, without the event. -/
theorem cycle_of_step {s t : State} (h : step s = .next t) : ∃ e, cycle s = .next (t, e) := by
  unfold step at h
  cases hc : cycle s with
  | next r => rw [hc] at h; cases h; exact ⟨r.2, rfl⟩
  | fault f => rw [hc] at h; cases h
  | refused r => rw [hc] at h; cases h

/-- Everything a step that answers a next state can have done (R71). -/
theorem step_cases {s t : State} (h : step s = .next t) :
    (s.run = .halted ∧ t = s) ∨
    (s.run = .running ∧ s.pc < s.bus.base ∧ t = s.advancePc.halt (.addressOutOfRange s.pc s.bus.base)) ∨
    (s.run = .running ∧ ¬ s.pc < s.bus.base ∧ (s.pc - s.bus.base).toNat + 4 ≤ s.bus.memory.capacity ∧
      ∃ w, s.fetch = .ok w ∧
        ((∃ i, recognise (BitVec.ofNat 32 w) = .instr i ∧ exec i s.advancePc = .next t) ∨
          ((∀ i, recognise (BitVec.ofNat 32 w) ≠ .instr i) ∧ t = s.advancePc))) := by
  obtain ⟨e, hc⟩ := cycle_of_step h
  rcases cycle_cases hc with ⟨hr, ht, -⟩ | ⟨hr, hb, ht, -⟩ | ⟨hr, hb, hl, w, hf, hw⟩
  · exact .inl ⟨hr, ht⟩
  · exact .inr (.inl ⟨hr, hb, ht⟩)
  · refine .inr (.inr ⟨hr, hb, hl, w.toNat, hf, ?_⟩)
    rw [BitVec.ofNat_toNat, BitVec.setWidth_eq]
    rcases hw with ⟨i, hi, he, -⟩ | ⟨hi, ht, -⟩ | ⟨hi, ht, -⟩
    · exact .inl ⟨i, hi, he⟩
    · exact .inr ⟨by simp [hi], ht⟩
    · exact .inr ⟨by simp [hi], ht⟩

/-- A step that answers a next state keeps the bus, with the memory in it, and the configuration (R20, R40). -/
theorem step_bus {s t : State} (h : step s = .next t) : t.bus = s.bus ∧ t.divremSigned = s.divremSigned := by
  rcases step_cases h with ⟨-, rfl⟩ | ⟨-, -, rfl⟩ | ⟨-, -, -, -, -, ⟨i, -, he⟩ | ⟨-, rfl⟩⟩
  · exact ⟨rfl, rfl⟩
  · exact ⟨rfl, rfl⟩
  · rcases exec_cases he with ⟨-, rfl⟩ | ⟨rd, v, -, rfl⟩ <;> exact ⟨rfl, rfl⟩
  · exact ⟨rfl, rfl⟩

/-- A step from Running that answers a next state has advanced the pc by 4 (R16, R73). -/
theorem step_pc {s t : State} (hr : s.run = .running) (h : step s = .next t) : t.pc = s.pc + 4 := by
  rcases step_cases h with ⟨hr', -⟩ | ⟨-, -, rfl⟩ | ⟨-, -, -, -, -, ⟨i, -, he⟩ | ⟨-, rfl⟩⟩
  · rw [hr] at hr'
    cases hr'
  · rfl
  · rcases exec_cases he with ⟨-, rfl⟩ | ⟨rd, v, -, rfl⟩ <;> rfl
  · rfl

/-- The next step fetches the word that `withFetchWord` stored (log 15). -/
theorem fetch_withFetchWord {s : State} (hm : s.bus.memory.wf = true) (hb : ¬ s.pc < s.bus.base)
    (hc : (s.pc - s.bus.base).toNat + 4 ≤ s.bus.memory.capacity) (w : Raw) :
    (s.withFetchWord 32 w.toNat).run = .running ∧ (s.withFetchWord 32 w.toNat).fetch = .ok w.toNat := by
  have hp : s.withFetchWord 32 w.toNat = { s with
      run := .running
      bus := { s.bus with memory := s.bus.memory.overlay (s.pc - s.bus.base).toNat (leBytes 4 w.toNat) } } := by
    rw [State.withFetchWord, tableWord_toNat, State.placeWord, if_neg hb, if_pos hc]
  have hl : leNat (leBytes 4 w.toNat) = w.toNat := leNat_leBytes 4 _ (by simpa using w.isLt)
  have ho := MemoryController.bytes_overlay hm (i := (s.pc - s.bus.base).toNat) (bs := leBytes 4 w.toNat)
    (by rw [leBytes_length]; exact hc)
  rw [leBytes_length] at ho
  refine ⟨by rw [hp], ?_⟩
  rcases fetch_cases (s.withFetchWord 32 w.toNat) with ⟨h, -⟩ | ⟨-, h, -⟩ | ⟨-, -, h⟩
  · rw [hp] at h
    exact absurd h hb
  · rw [hp, MemoryController.overlay_capacity] at h
    exact absurd hc (by simpa using h)
  · rw [h, hp]
    simp only [ho, hl]

end Sys2Proof.Machine
end

