-- ==== Sys2Proof/Laws/Frames.lean ====
section
/-!
SUPPORT. The frames of the shared operations, the operand forms said once, and one turn of the driver.
-/

namespace Sys2Proof.Machine

/-- Everything a register-register operation does (R84). -/
theorem execR_next (f : Word → Word → Word) (rd rs1 rs2 : RegIdx) (s : State) :
    execR f rd rs1 rs2 s = .next (s.writeReg rd (f (s.readReg rs1) (s.readReg rs2))) := rfl

/-- Everything a register-immediate operation does (R84). -/
theorem execI_next (f : Word → Word → Word) (rd rs1 : RegIdx) (imm : Word) (s : State) :
    execI f rd rs1 imm s = .next (s.writeReg rd (f (s.readReg rs1) imm)) := rfl

theorem State.writeReg_sameBut (s : State) (rd : RegIdx) (v : Word) : s.SameBut rd (s.writeReg rd v) :=
  ⟨fun _ h => s.readReg_writeReg_ne v h, rfl, rfl, rfl, rfl, fun _ => rfl, rfl⟩

theorem State.advancePc_sameData (s : State) : s.SameData s.advancePc :=
  ⟨fun _ => rfl, rfl, fun _ => rfl, rfl⟩

theorem State.halt_sameData (s : State) (c : HaltCause) : s.SameData (s.halt c) :=
  ⟨fun _ => rfl, rfl, fun _ => rfl, rfl⟩

theorem State.SameData.trans {s t u : State} (h : s.SameData t) (k : t.SameData u) : s.SameData u :=
  ⟨fun r => (k.regs r).trans (h.regs r), k.bus.trans h.bus, fun i => (k.bytes i).trans (h.bytes i),
    k.divremSigned.trans h.divremSigned⟩

theorem drive_halted {s : State} (h : s.run = .halted) (n : Nat) : drive n s = .next s := by
  cases n <;> simp [drive, h]

theorem drive_next {s t : State} (hr : s.run = .running) (h : step s = .next t) (n : Nat) :
    drive (n + 1) s = drive n t := by
  simp [drive, hr, h]

theorem drive_fault {s : State} {f : Fault} (hr : s.run = .running) (h : step s = .fault f) (n : Nat) :
    drive (n + 1) s = .fault f := by
  simp [drive, hr, h]

/-- A run of `m + n` steps is a run of `n` from where the first `m` arrive. -/
theorem drive_add {s t : State} {m : Nat} (h : drive m s = .next t) (n : Nat) : drive (m + n) s = drive n t := by
  induction m generalizing s with
  | zero => injection h with h; rw [Nat.zero_add, h]
  | succ m ih =>
    cases hr : s.run with
    | halted =>
      rw [drive_halted hr] at h ⊢
      injection h with h
      rw [← h, drive_halted hr]
    | running =>
      rw [Nat.succ_add]
      cases hs : step s with
      | next u => rw [drive_next hr hs] at h ⊢; exact ih h
      | fault r => rw [drive_fault hr hs] at h; cases h
      | refused r => simp [drive, hr, hs] at h

end Sys2Proof.Machine
end

