-- ==== Sys2Proof/Laws/PerInstr.lean ====
section
/-!
SUPPORT. Facts about every instruction as syntax, one lemma per constructor. Family RowPattern: the word an instruction is
encoded as matches its row of the table of spec/30_encoding.md rule R58.
-/

namespace Sys2Proof.Laws.RowPattern

/-- The instruction's word, under its row's mask, is its row's match. -/
def Statement (i : Instr) : Prop := encode i &&& i.mask = i.pattern

/-- A word of the R layout under the mask of the R rows: the register fields are cleared. -/
theorem encodeR_masked (funct7 : BitVec 7) (rs2 rs1 : RegIdx) (funct3 : BitVec 3) (rd : RegIdx) (opcode : BitVec 7) :
    encodeR funct7 rs2 rs1 funct3 rd opcode &&& 0xFE00707F#32 = encodeR funct7 0 0 funct3 0 opcode := by
  refine BitVec.eq_of_getLsbD_eq fun i hi => ?_
  simp only [BitVec.getLsbD_and, getLsbD_encodeR]
  interval_cases i <;> simp

/-- A word of the I layout under the mask of ADDI's row: register fields and immediate are cleared. -/
theorem encodeI_masked (imm12 : BitVec 12) (rs1 : RegIdx) (funct3 : BitVec 3) (rd : RegIdx) (opcode : BitVec 7) :
    encodeI imm12 rs1 funct3 rd opcode &&& 0x0000707F#32 = encodeI 0 0 funct3 0 opcode := by
  refine BitVec.eq_of_getLsbD_eq fun i hi => ?_
  simp only [BitVec.getLsbD_and, getLsbD_encodeI]
  interval_cases i <;> simp

theorem addi (rd rs1 : RegIdx) (imm : Word) : Statement (.addi rd rs1 imm) :=
  (encodeI_masked _ _ _ _ _).trans (show _ = 0x00000013#32 by decide)
theorem add (rd rs1 rs2 : RegIdx) : Statement (.add rd rs1 rs2) :=
  (encodeR_masked _ _ _ _ _ _).trans (show _ = 0x00000033#32 by decide)
theorem mul (rd rs1 rs2 : RegIdx) : Statement (.mul rd rs1 rs2) :=
  (encodeR_masked _ _ _ _ _ _).trans (show _ = 0x02000033#32 by decide)
theorem sub (rd rs1 rs2 : RegIdx) : Statement (.sub rd rs1 rs2) :=
  (encodeR_masked _ _ _ _ _ _).trans (show _ = 0x40000033#32 by decide)
theorem sll (rd rs1 rs2 : RegIdx) : Statement (.sll rd rs1 rs2) :=
  (encodeR_masked _ _ _ _ _ _).trans (show _ = 0x00001033#32 by decide)
theorem div (rd rs1 rs2 : RegIdx) : Statement (.div rd rs1 rs2) :=
  (encodeR_masked _ _ _ _ _ _).trans (show _ = 0x02004033#32 by decide)
theorem rem (rd rs1 rs2 : RegIdx) : Statement (.rem rd rs1 rs2) :=
  (encodeR_masked _ _ _ _ _ _).trans (show _ = 0x02006033#32 by decide)
theorem zeroSentinel : Statement .zeroSentinel := show 0#32 &&& 0xFFFFFFFF#32 = 0#32 by decide

end Sys2Proof.Laws.RowPattern
end

