-- ==== Sys2Proof/Tests/Slice0.lean ====
section
/-!
SUPPORT. Tests of the model, each named. Expected values come from spec/95_test_vectors.md and the examples of the rules,
never from the model. Then one witness per statement that has hypotheses.
-/

namespace Sys2Proof.Tests

open Sys2Proof.Machine

/-! Helpers -/

/-- The reset state with some registers set. -/
def withRegs (regs : List (RegIdx × Word)) : State :=
  regs.foldl (fun s r => s.writeReg r.1 r.2) State.reset

/-- One step from there, over one word. -/
def runWord (w : Nat) (regs : List (RegIdx × Word)) : Host.Outcome State Fault Refusal :=
  step ((withRegs regs).withFetchWord 32 w)

/-- A register of an outcome's next state. -/
def regOf (r : RegIdx) : Host.Outcome State Fault Refusal → Option Word
  | .next t => some (t.readReg r)
  | .fault _ => none
  | .refused _ => none

/-- The snapshot of an outcome's next state. -/
def snapshotOf : Host.Outcome State Fault Refusal → Option Snapshot
  | .next t => some t.snapshot
  | .fault _ => none
  | .refused _ => none

/-- The event of a cycle. -/
def eventOf : Host.Outcome (State × Event) Fault Refusal → Option Event
  | .next r => some r.2
  | .fault _ => none
  | .refused _ => none

/-- The fault of an outcome. -/
def faultOf : Host.Outcome State Fault Refusal → Option Fault
  | .next _ => none
  | .fault f => some f
  | .refused _ => none

/-- The state construction gives, or the reset state. -/
def built (size : Nat) (image : List Byte) : State :=
  match construct { Config.defaults with memSize := size } image with
  | .ok s => s
  | .error _ => State.reset

/-- The memory of the vectors M1 to M12. -/
def vectorMemory : MemoryController :=
  memoryReset 16 [0x93, 0x00, 0x10, 0x00, 0xEF, 0xBE, 0xAD, 0xDE, 1, 2, 3, 4, 5, 6, 7, 8]

/-- The bus of the vectors BU1 to BU7. -/
def vectorBus : Bus := { base := 0x80000000, memory := vectorMemory }

/-! Well-formedness -/

theorem test_wellFormed_bounds : (Instr.addi 1 0 (-2048)).wellFormed = true ∧ (Instr.addi 1 0 2047).wellFormed = true := by
  decide
theorem test_illFormed_immediate_high : (Instr.addi 1 0 2048).wellFormed = false := by decide
theorem test_illFormed_immediate_low : (Instr.addi 1 0 (-2049)).wellFormed = false := by decide

/-! Decoding: words written out bit by bit from the patterns of R90, R95 to R97, R105 to R107, R61 -/

theorem test_decode_addi : recognise 0b11111111000000010000000100010011#32 = .instr (.addi 2 2 (-16)) := by decide
theorem test_decode_addi_most_negative : recognise 0b10000000000000000000000010010011#32 = .instr (.addi 1 0 (-2048)) := by
  decide
theorem test_decode_add : recognise 0b00000000010100110000001110110011#32 = .instr (.add 7 6 5) := by decide
theorem test_decode_mul : recognise 0b00000010001100001000001000110011#32 = .instr (.mul 4 1 3) := by decide
theorem test_decode_sub : recognise 0b01000000000100100000001010110011#32 = .instr (.sub 5 4 1) := by decide
theorem test_decode_sll : recognise 0b00000000001100101001001100110011#32 = .instr (.sll 6 5 3) := by decide
theorem test_decode_div : recognise 0b00000010001100001100001000110011#32 = .instr (.div 4 1 3) := by decide
theorem test_decode_rem : recognise 0b00000010001100001110001010110011#32 = .instr (.rem 5 1 3) := by decide
theorem test_decode_zeroSentinel : recognise 0b00000000000000000000000000000000#32 = .instr .zeroSentinel := by decide

/-- E5, E6, E8: the decoded values. -/
theorem test_decode_values :
    decode 0xFFFF8F93#32 = .i 31 0 31 0xFFFFFFFFFFFFFFFF#64 ∧ decode 0x02308233#32 = .r 4 0 1 3 1 ∧
    decode 0x0240C1B3#32 = .r 3 4 1 4 1 ∧ decode 0#32 = .unknown 0#32 := by decide
/-- E9 to E11, E12 to E14 and P1 to P5: the words that are no instructions, rejected by name. -/
theorem test_decode_rejects :
    recognise 0xFFFFFFFF#32 = .unknown 0xFFFFFFFF#32 ∧ recognise 0x00000080#32 = .unknown 0x00000080#32 ∧
    recognise 0x0000006F#32 = .unknown 0x0000006F#32 ∧ recognise 0x00113423#32 = .unknown 0x00113423#32 ∧
    recognise 0x800000B7#32 = .unknown 0x800000B7#32 ∧
    recognise 0x00309393#32 = .unimplemented 0x00309393#32 ∧ recognise 0x0010A333#32 = .unimplemented 0x0010A333#32 ∧
    recognise 0x0230D233#32 = .unimplemented 0x0230D233#32 ∧ recognise 0x04208033#32 = .unimplemented 0x04208033#32 ∧
    recognise 0x40109033#32 = .unimplemented 0x40109033#32 := by decide
/-- E12 to E14: the unreachable S and U layouts applied. -/
theorem test_unreachable_layouts :
    layoutS 0x00113423#32 = .s 8 3 2 1 0 ∧ layoutU 0x800000B7#32 = .u 1 0xFFFFFFFF80000000#64 ∧
    layoutU 0x12345037#32 = .u 0 0x12345000#64 := by decide
/-- R153 and S9: the image bytes are the word's, least significant first. -/
theorem test_decodeBytes : decodeBytes [0x93, 0x00, 0x10, 0x00, 0xFF] = some (.instr (.addi 1 0 1), [0xFF]) := by decide
theorem test_decodeBytes_short : decodeBytes [0x93, 0x00, 0x10] = none := by decide
theorem test_decodeTableWord : decodeTableWord 32 0x02006033 = some (.rem 0 0 0) ∧ decodeTableWord 32 0x0000006F = none := by
  decide
/-- The words of Program E, encoded. -/
theorem test_encode_programE :
    encode (.addi 1 0 (-1)) = 0xFFF00093#32 ∧ encode (.sll 4 1 3) = 0x00309233#32 ∧ encode (.div 6 4 5) = 0x02524333#32 ∧
    encode (.rem 7 4 5) = 0x025263B3#32 ∧ encode (.mul 8 4 3) = 0x02320433#32 ∧ encode (.add 9 4 4) = 0x004204B3#32 ∧
    encode (.sub 10 0 3) = 0x40300533#32 := by decide

/-! Memory controller, bus and construction -/

/-- M1 to M9: values at every width, misaligned ones and the last word among them. -/
theorem test_load_values :
    vectorMemory.load 0 8 = .ok 0x93 ∧ vectorMemory.load 0 16 = .ok 0x0093 ∧ vectorMemory.load 0 32 = .ok 0x00100093 ∧
    vectorMemory.load 0 64 = .ok 0xDEADBEEF00100093 ∧ vectorMemory.load 4 32 = .ok 0xDEADBEEF ∧
    vectorMemory.load 1 32 = .ok 0xEF001000 ∧ vectorMemory.load 3 16 = .ok 0xEF00 ∧
    vectorMemory.load 8 64 = .ok 0x0807060504030201 ∧ vectorMemory.load 12 32 = .ok 0x08070605 := by decide
/-- M10 to M12: the upper bound and the width. -/
theorem test_load_errors :
    vectorMemory.load 13 32 = .outOfBounds 13 32 16 ∧ vectorMemory.load 15 8 = .ok 0x08 ∧
    vectorMemory.load 16 8 = .outOfBounds 16 8 16 ∧ vectorMemory.load 0 24 = .err .invalidWidth ∧
    vectorMemory.load 0 0 = .err .invalidWidth ∧ vectorMemory.load 0 128 = .err .invalidWidth := by decide
/-- BU1 to BU7. -/
theorem test_bus :
    vectorBus.load 0x80000000 32 = .ok 0x00100093 ∧ vectorBus.load 0x80000004 32 = .ok 0xDEADBEEF ∧
    vectorBus.load 0x7FFFFFFF 8 = .err (.addressOutOfRange 0x7FFFFFFF 0x80000000) ∧
    vectorBus.load 0 32 = .err (.addressOutOfRange 0 0x80000000) ∧
    vectorBus.load 0x80000010 32 = .outOfBounds 16 32 16 ∧
    vectorBus.load 0x7FFFFFFF 24 = .err (.addressOutOfRange 0x7FFFFFFF 0x80000000) ∧
    vectorBus.load 0x8000000D 32 = .outOfBounds 13 32 16 := by decide
/-- K1 to K3. -/
theorem test_construction :
    (built 8 [0x13, 0, 0, 0]).bus.memory.bytes 0 8 = [0x13, 0, 0, 0, 0, 0, 0, 0] ∧
    (match construct { Config.defaults with memSize := 4 } [1, 2, 3, 4, 5] with
      | .ok _ => false | .error e => decide (e = .imageTooLarge)) = true ∧
    (built 4 [1, 2, 3, 4]).bus.memory.bytes 0 4 = [1, 2, 3, 4] := by decide
/-- The canonical form: writing zero unlists a byte. -/
theorem test_cells_canonical :
    setCell (setCell (setCell [] 5 1) 2 7) 5 0 = [(2, 7)] ∧ vectorMemory.wf = true := by decide

/-! Reset (R25) -/

theorem test_reset :
    State.reset.readReg 2 = 0x88000000#64 ∧ State.reset.readReg 0 = 0#64 ∧ State.reset.readReg 31 = 0#64 ∧
    State.reset.pc = 0x80000000#64 ∧ State.reset.run = .running ∧ State.reset.cause = .none := by decide
theorem test_reset_constructed : (match construct Config.defaults [] with
    | .ok s => decide (s = State.reset) | .error _ => false) = true := by decide

/-! Instructions: at most two vectors each -/

theorem test_addi_wraps : regOf 1 (runWord 0xFFF00093 []) = some 0xFFFFFFFFFFFFFFFF#64 := by decide
theorem test_addi_writes_register_zero : regOf 0 (runWord 0x00500013 []) = some 5#64 := by decide
theorem test_add_carry_lost :
    regOf 3 (runWord 0x002081B3 [(1, 0x8000000000000000), (2, 0x8000000000000000)]) = some 0#64 := by decide
theorem test_add_in_place : regOf 1 (runWord 0x001080B3 [(1, 0x15)]) = some 0x2A#64 := by decide
theorem test_sub_operand_order : regOf 3 (runWord 0x402081B3 [(1, 5), (2, 7)]) = some 0xFFFFFFFFFFFFFFFE#64 := by decide
theorem test_sub_self : regOf 4 (runWord 0x40420233 [(4, 0x1234)]) = some 0#64 := by decide
theorem test_sll_masks_amount : regOf 3 (runWord 0x002091B3 [(1, 1), (2, 65)]) = some 2#64 := by decide
theorem test_sll_by_63 :
    regOf 3 (runWord 0x002091B3 [(1, 0xFFFFFFFFFFFFFFFF), (2, 0xFFFFFFFFFFFFFFFF)]) = some 0x8000000000000000#64 := by decide
theorem test_mul_wraps : regOf 3 (runWord 0x022081B3 [(1, 0xFFFFFFFFFFFFFFFF), (2, 2)]) = some 0xFFFFFFFFFFFFFFFE#64 := by
  decide
theorem test_mul_low_half :
    regOf 3 (runWord 0x022081B3 [(1, 0x0000000100000001), (2, 0x0000000100000001)]) = some 0x0000000200000001#64 := by decide
theorem test_div_by_zero_writes_dividend : regOf 3 (runWord 0x0220C1B3 [(1, 0x64), (2, 0), (3, 0x55)]) = some 0x64#64 := by
  decide
theorem test_div_truncates : regOf 3 (runWord 0x0220C1B3 [(1, 0xFFFFFFFFFFFFFFF9), (2, 2)]) = some 0xFFFFFFFFFFFFFFFD#64 := by
  decide
theorem test_rem_sign_of_dividend : regOf 3 (runWord 0x0220E1B3 [(1, 7), (2, 0xFFFFFFFFFFFFFFFE)]) = some 1#64 := by decide
theorem test_rem_overflow :
    regOf 3 (runWord 0x0220E1B3 [(1, 0x8000000000000000), (2, 0xFFFFFFFFFFFFFFFF)]) = some 0#64 := by decide
/-- The rows of R110 on which the readings differ: the signed value and the unsigned one. -/
theorem test_divq_both_readings :
    divq true (-7) 2 = -3 ∧ divq false (-7) 2 = 0x7FFFFFFFFFFFFFFC#64 ∧ divq true 7 (-2) = -3 ∧ divq false 7 (-2) = 0 ∧
    divq true (-7) (-2) = 3 ∧ divq false (-7) (-2) = 0 ∧
    divq true 0x8000000000000000 (-1) = 0x8000000000000000 ∧ divq false 0x8000000000000000 (-1) = 0 ∧
    divq true 0x7FFFFFFFFFFFFFFF (-1) = 0x8000000000000001 ∧ divq true (-3) 5 = 0 ∧
    divq false (-3) 5 = 0x3333333333333332 := by decide
theorem test_remr_both_readings :
    remr true (-7) 2 = -1 ∧ remr false (-7) 2 = 1 ∧ remr true 7 (-2) = 1 ∧ remr false 7 (-2) = 7 ∧
    remr true (-7) (-2) = -1 ∧ remr false (-7) (-2) = 0xFFFFFFFFFFFFFFF9#64 ∧
    remr true 0x8000000000000000 (-1) = 0 ∧ remr false 0x8000000000000000 (-1) = 0x8000000000000000 ∧
    remr true (-3) 5 = -3 ∧ remr false (-3) 5 = 3 := by decide
/-- X1: the zero word halts, the pc advanced, the registers as they were. -/
theorem test_zeroSentinel_halts : snapshotOf (step State.reset) =
    some { State.reset.snapshot with pc := 0x80000004, run := .halted, cause := .invalidInstruction } := by decide
theorem test_zeroSentinel_event : eventOf (cycle State.reset) = some (.haltedNow .invalidInstruction) := by decide

/-! The step -/

/-- X2, X10: the first step over the image, the last partial word completed with a zero byte. -/
theorem test_first_step : snapshotOf (step (built 0x08000000 [0x93, 0x00, 0x10])) =
    some { (withRegs [(1, 1)]).snapshot with pc := 0x80000004 } := by decide
/-- X4: an unknown opcode only advances the pc. -/
theorem test_unknown_opcode : snapshotOf (runWord 0xFFFFFFFF []) = some { State.reset.snapshot with pc := 0x80000004 } := by
  decide
theorem test_unknown_opcode_event :
    eventOf (cycle (State.reset.withFetchWord 32 0x0000006F)) = some (.unknownOpcode 0x0000006F) := by decide
theorem test_unimplemented_event :
    eventOf (cycle (State.reset.withFetchWord 32 0x0010A333)) = some (.unimplementedInstruction 0x0010A333) := by decide
/-- X7, X8: a fetch past the end of memory faults. -/
theorem test_fetch_past_end :
    faultOf (step (built 3 [])) = some (.memoryOutOfBounds 0 32 3) ∧
    faultOf (step (built 6 [0x13, 0, 0, 0, 0x13, 0]).advancePc) = some (.memoryOutOfBounds 4 32 6) := by decide
/-- X11: a pc below the base. -/
theorem test_address_out_of_range : snapshotOf (step { State.reset with pc := 0x7FFFFFFC }) =
    some { State.reset.snapshot with
      pc := 0x80000000, run := .halted, cause := .addressOutOfRange 0x7FFFFFFC 0x80000000 } := by decide
/-- X3: a halted core idles. -/
theorem test_halted_idles : eventOf (cycle (State.reset.halt .invalidInstruction)) = some .idle ∧
    snapshotOf (step (State.reset.halt .invalidInstruction)) = some (State.reset.halt .invalidInstruction).snapshot := by decide
/-- R19, R22: the numbers of the run states and the causes. -/
theorem test_codes : RunState.running.code = 0 ∧ RunState.halted.code = 1 ∧ HaltCause.none.code = 0 ∧
    (HaltCause.addressOutOfRange 0 1).code = 1 ∧ HaltCause.invalidInstruction.code = 2 := by decide
/-- The opcode table's rows, operands zero, run as the first instruction after reset: none is refused. -/
theorem test_table_rows_run :
    [0x00000013, 0x00000033, 0x02000033, 0x40000033, 0x00001033, 0x02004033, 0x02006033, 0x00000000].all
      (fun w => (decodeTableWord 32 w).isSome && (snapshotOf (step (State.reset.withFetchWord 32 w))).isSome) = true := by decide

/-! Witnesses: for each statement with hypotheses, values that meet all of them together -/

/-- A core of 8 bytes of memory over the ADDI of S9. -/
def small : State := built 8 [0x93, 0x00, 0x10, 0x00]

theorem test_witness_DecodeOfEncode : (Instr.addi 1 0 (-2048)).wellFormed = true := by decide
theorem test_witness_EncodeOfDecode : recognise 0x80000013#32 = .instr (.addi 0 0 (-2048)) := by decide
theorem test_witness_OpcodeSelectsFormat :
    (0x80000013#32).toNat % 2 ^ 7 = 0x13 ∧ (0xFE007033#32).toNat % 2 ^ 7 = 0x33 ∧
    (0x0000007F#32).toNat % 2 ^ 7 ≠ 0x13 ∧ (0x0000007F#32).toNat % 2 ^ 7 ≠ 0x33 := by decide
theorem test_witness_LoadIsLittleEndian :
    15 + 8 / 8 ≤ vectorMemory.capacity ∧ 14 + 16 / 8 ≤ vectorMemory.capacity ∧ 12 + 32 / 8 ≤ vectorMemory.capacity ∧
    8 + 64 / 8 ≤ vectorMemory.capacity := by decide
theorem test_witness_LoadChecksInOrder : vectorMemory.capacity < 13 + 32 / 8 := by decide
theorem test_witness_BusMapsAddresses :
    (0x7FFFFFFF : Word).toNat < vectorBus.base.toNat ∧ vectorBus.base.toNat ≤ (0x80000000 : Word).toNat := by decide
theorem test_witness_MixedWidthLoadsAgree : vectorMemory.load 8 64 = .ok 0x0807060504030201 := by decide
/-- The last two: a configuration at both bounds of R5. -/
theorem test_witness_ConstructionPlacesImage :
    1 ≤ 4 ∧ Config.defaultMemBase.toNat + 4 < 2 ^ 64 ∧ [1, 2, 3, 4].length ≤ 4 ∧ 4 < [1, 2, 3, 4, 5].length ∧
    1 ≤ 1 ∧ (0xFFFFFFFFFFFFFFFE : Word).toNat + 1 < 2 ^ 64 := by decide
/-- The error construction answers. -/
def errorOf (p : Config.Params) (image : List Byte) : Option ConstructionError :=
  match construct p image with
  | .ok _ => none
  | .error e => some e
/-- For ConstructionErrors: one byte too many at the smallest legal configuration, and one step outside each bound of R5,
with an image that fits and with one that does not. -/
theorem test_witness_ConstructionErrors :
    errorOf ⟨0xFFFFFFFFFFFFFFFE, 1, true⟩ [1, 2] = some .imageTooLarge ∧
    errorOf ⟨0xFFFFFFFFFFFFFFFE, 1, true⟩ [1] = none ∧
    errorOf ⟨0xFFFFFFFFFFFFFFFF, 1, true⟩ [1] = some .invalidParameters ∧
    errorOf ⟨0x80000000, 0, true⟩ [] = some .invalidParameters ∧
    errorOf ⟨0x80000000, 0, true⟩ [1] = some .invalidParameters := by decide
theorem test_witness_construct : ∃ s, construct { Config.defaults with memSize := 8 } [0x93, 0x00, 0x10, 0x00] = .ok s :=
  ⟨_, rfl⟩
/-- For ResetIsDefaultConstruction. -/
theorem test_witness_image_fits : [0x93, 0x00, 0x10, 0x00].length ≤ Config.defaultMemSize := by decide
theorem test_witness_encodings :
    0xFFF00093#32 &&& 0x0000707F#32 = 0x00000013#32 ∧ 0x002081B3#32 &&& 0xFE00707F#32 = 0x00000033#32 ∧
    0x402081B3#32 &&& 0xFE00707F#32 = 0x40000033#32 ∧ 0x002091B3#32 &&& 0xFE00707F#32 = 0x00001033#32 ∧
    0x022081B3#32 &&& 0xFE00707F#32 = 0x02000033#32 ∧ 0x0220C1B3#32 &&& 0xFE00707F#32 = 0x02004033#32 ∧
    0x0220E1B3#32 &&& 0xFE00707F#32 = 0x02006033#32 := by decide
/-- For DivEffect, RemEffect, QuotientRemainderIdentity and RemainderSignAndBound, on both readings. -/
theorem test_witness_nonzero_divisor :
    State.reset.readReg 2 ≠ 0#64 ∧ State.reset.divremSigned = true ∧
    ({ State.reset with divremSigned := false }).readReg 2 ≠ 0#64 ∧
    ({ State.reset with divremSigned := false }).divremSigned = false := by decide
theorem test_witness_DivisionByZeroWritesDividend : State.reset.readReg 0 = 0#64 := by decide
theorem test_witness_SignedDivisionOverflowWraps :
    (withRegs [(1, 0x8000000000000000), (2, -1)]).divremSigned = true ∧
    ((withRegs [(1, 0x8000000000000000), (2, -1)]).readReg 1).toInt = -2 ^ 63 ∧
    ((withRegs [(1, 0x8000000000000000), (2, -1)]).readReg 2).toInt = -1 := by decide
theorem test_witness_SignednessIrrelevantBelow :
    ((withRegs [(1, 0x7FFFFFFFFFFFFFFF)]).readReg 1).toNat < 2 ^ 63 ∧
    ((withRegs [(1, 0x7FFFFFFFFFFFFFFF)]).readReg 2).toNat < 2 ^ 63 := by decide
theorem test_witness_ResultDependsOnSourcesOnly :
    (Instr.add 3 1 2).dest? = some 3 ∧ State.reset.divremSigned = (withRegs [(9, 1)]).divremSigned ∧
    ∀ r ∈ (Instr.add 3 1 2).sources, State.reset.readReg r = (withRegs [(9, 1)]).readReg r := by decide
/-- For FetchReadsWordAtPc and, at the last word of memory, its boundary. -/
theorem test_witness_FetchReadsWordAtPc :
    small.bus.base.toNat ≤ small.pc.toNat ∧ small.pc.toNat - small.bus.base.toNat + 4 ≤ small.bus.memory.capacity ∧
    small.advancePc.pc.toNat - small.bus.base.toNat + 4 = small.bus.memory.capacity := by decide
theorem test_witness_StepRunsDecodedInstruction :
    small.run = .running ∧ decodeBytes [small.bus.memory.byte (small.pc.toNat - small.bus.base.toNat),
      small.bus.memory.byte (small.pc.toNat - small.bus.base.toNat + 1),
      small.bus.memory.byte (small.pc.toNat - small.bus.base.toNat + 2),
      small.bus.memory.byte (small.pc.toNat - small.bus.base.toNat + 3)] = some (.instr (.addi 1 0 1), []) := by decide
theorem test_witness_UnknownOpcodeIsNoOp :
    (built 8 [0x80, 0, 0, 0]).run = .running ∧ (built 8 [0x80, 0, 0, 0]).cause = .none ∧
    (built 8 [0x80, 0, 0, 0]).fetch = .ok (0x00000080#32).toNat ∧ (0x00000080#32).toNat ≠ 0 ∧
    (0x00000080#32).toNat % 2 ^ 7 ≠ 0x13 ∧ (0x00000080#32).toNat % 2 ^ 7 ≠ 0x33 := by decide
theorem test_witness_UnimplementedIsNoOp_opImm :
    (built 8 [0x93, 0x93, 0x30, 0x00]).fetch = .ok (0x00309393#32).toNat ∧ (0x00309393#32).toNat % 2 ^ 7 = 0x13 ∧
    (0x00309393#32).toNat / 2 ^ 12 % 2 ^ 3 ≠ 0 ∧ (built 8 [0x93, 0x93, 0x30, 0x00]).run = .running ∧
    (built 8 [0x93, 0x93, 0x30, 0x00]).cause = .none := by decide
theorem test_witness_UnimplementedIsNoOp_op :
    (built 8 [0x33, 0x80, 0x20, 0x04]).fetch = .ok (0x04208033#32).toNat ∧ (0x04208033#32).toNat % 2 ^ 7 = 0x33 ∧
    ((0x04208033#32).toNat / 2 ^ 12 % 2 ^ 3, (0x04208033#32).toNat / 2 ^ 25) ∉
      [(0x0, 0x00), (0x0, 0x20), (0x1, 0x00), (0x0, 0x01), (0x4, 0x01), (0x6, 0x01)] ∧
    (built 8 [0x33, 0x80, 0x20, 0x04]).run = .running ∧ (built 8 [0x33, 0x80, 0x20, 0x04]).cause = .none := by decide
theorem test_witness_ZeroWordHalts : State.reset.run = .running ∧ State.reset.fetch = .ok 0 := by decide
/-- For the second half of ZeroWordHalts, and for HaltsOnlyOnFetchFailure: a step that halts. -/
theorem test_witness_step_halts :
    ∃ t, step State.reset = .next t ∧ t.run = .halted ∧ t.cause = .invalidInstruction := ⟨_, rfl, rfl, rfl⟩
theorem test_witness_RejectedAddressHalts :
    ({ State.reset with pc := 0x7FFFFFFF }).run = .running ∧
    ({ State.reset with pc := 0x7FFFFFFF }).pc.toNat < State.reset.bus.base.toNat := by decide
/-- For the second half of RejectedAddressHalts. -/
theorem test_witness_step_rejected :
    ∃ t, step { State.reset with pc := 0x7FFFFFFF } = .next t ∧ t.cause = .addressOutOfRange 0x7FFFFFFF 0x80000000 :=
  ⟨_, rfl, rfl⟩
theorem test_witness_FetchPastEndFaults :
    small.advancePc.advancePc.run = .running ∧
    small.bus.base.toNat ≤ small.advancePc.advancePc.pc.toNat ∧
    small.bus.memory.capacity < small.advancePc.advancePc.pc.toNat - small.bus.base.toNat + 4 := by decide
theorem test_witness_HaltedCoreIdles : (State.reset.halt .invalidInstruction).run = .halted := by decide
/-- For EveryFetchAdvancesPc: both of its outcomes, and the wrap. -/
theorem test_witness_EveryFetchAdvancesPc :
    small.run = .running ∧ (snapshotOf (step small)).isSome = true ∧
    faultOf (step small.advancePc.advancePc) = some (.memoryOutOfBounds 8 32 8) ∧
    ({ State.reset with pc := 0xFFFFFFFFFFFFFFFC }).run = .running := by decide
/-- For MemoryAndConfigurationConstant and StepKeepsInvariant: a step from a state with the invariant. -/
theorem test_witness_StepKeepsInvariant : small.Inv ∧ (snapshotOf (step small)).isSome = true := by decide
/-- For OnlyDestinationRegisterWritten and EventTellsWhatHappened: a cycle of each kind of event. -/
theorem test_witness_cycle_events :
    eventOf (cycle small) = some .noDiag ∧ eventOf (cycle small.advancePc) = some (.haltedNow .invalidInstruction) ∧
    eventOf (cycle (small.halt .invalidInstruction)) = some .idle ∧
    eventOf (cycle (built 8 [0x80, 0, 0, 0])) = some (.unknownOpcode 0x00000080) ∧
    eventOf (cycle (built 8 [0x93, 0x93, 0x30, 0x00])) = some (.unimplementedInstruction 0x00309393) ∧
    eventOf (cycle (built 8 [0x33, 0x80, 0x20, 0x04])) = some (.unimplementedInstruction 0x04208033) := by decide
theorem test_witness_ControlIndependentOfRegisters :
    State.reset.pc = (withRegs [(9, 1)]).pc ∧ State.reset.run = (withRegs [(9, 1)]).run ∧
    State.reset.cause = (withRegs [(9, 1)]).cause ∧ State.reset.bus = (withRegs [(9, 1)]).bus := by decide
/-- For EveryRunEnds. -/
theorem test_witness_EveryRunEnds : State.reset.Inv := by decide
theorem test_witness_RunHaltsAtFirstZeroWord :
    small.Inv ∧ small.run = .running ∧ small.fetchIndex + 4 * 1 + 4 ≤ small.bus.memory.capacity ∧
    (∀ j < 1, ∃ m < 4, small.bus.memory.byte (small.fetchIndex + 4 * j + m) ≠ 0#8) ∧
    (∀ m < 4, small.bus.memory.byte (small.fetchIndex + 4 * 1 + m) = 0#8) := by decide
theorem test_witness_PcAfterSteps : ∃ t, drive 1 small = .next t ∧ t.run = .running := ⟨_, rfl, rfl⟩

end Sys2Proof.Tests
end

/-! Every step keeps the invariant of a core configured within R5 -/

namespace Sys2Proof.Machine

/-- With the pc not below the base the bus accepts its address (R36, R131). -/
theorem State.PcOk.not_pc_lt_base {s : State} (h : s.PcOk) : ¬ s.pc < s.bus.base :=
  BitVec.not_lt.mpr (BitVec.le_def.mpr h.1)

/-- With the pc not below the base the fetch index is the difference of the two numbers, without a wrap (R37). -/
theorem State.PcOk.fetchIndex_eq {s : State} (h : s.PcOk) : s.fetchIndex = s.pc.toNat - s.bus.base.toNat :=
  BitVec.toNat_sub_of_le (BitVec.le_def.mpr h.1)

/-- Under R5 the advance past a word that lies inside memory does not wrap: it stays at or below the end of memory (R17). -/
theorem State.PcOk.pc_add_four_toNat {s : State} (hc : s.Configured) (hp : s.PcOk)
    (hi : s.fetchIndex + 4 ≤ s.bus.memory.capacity) : (s.pc + 4).toNat = s.pc.toNat + 4 := by
  obtain ⟨-, htop⟩ := hc
  have hbase := hp.1
  rw [hp.fetchIndex_eq] at hi
  exact BitVec.toNat_add_of_lt (show s.pc.toNat + 4 < 2 ^ 64 by omega)

/-- The advance past a word that lies inside memory keeps the pc's constraint (R17). -/
theorem State.PcOk.advancePc {s : State} (hc : s.Configured) (hp : s.PcOk)
    (hi : s.fetchIndex + 4 ≤ s.bus.memory.capacity) : s.advancePc.PcOk := by
  have hpc := hp.pc_add_four_toNat hc hi
  rw [hp.fetchIndex_eq] at hi
  obtain ⟨hbase, hmod, -⟩ := hp
  simp only [State.PcOk, State.advancePc_pc, State.advancePc_bus, hpc]
  omega

/-- Everything a step that answers a next state can have done when the pc is not below the base: the rejection of an address
cannot occur (R131), so a Running core fetched a word inside memory and ran it or advanced over it (R71, R72). -/
theorem step_cases_of_pcOk {s t : State} (hp : s.PcOk) (h : step s = .next t) :
    (s.run = .halted ∧ t = s) ∨
    (s.run = .running ∧ s.fetchIndex + 4 ≤ s.bus.memory.capacity ∧
      ((∃ i, exec i s.advancePc = .next t) ∨ t = s.advancePc)) := by
  rcases step_cases h with hh | ⟨-, hb, -⟩ | ⟨hr, -, hi, -, -, ⟨i, -, he⟩ | ⟨-, ht⟩⟩
  · exact .inl hh
  · exact absurd hb hp.not_pc_lt_base
  · exact .inr ⟨hr, hi, .inl ⟨i, he⟩⟩
  · exact .inr ⟨hr, hi, .inr ht⟩

/-- A step keeps the pc's constraint: it leaves a Halted core alone and advances a Running one past the fetched word (R17). -/
theorem step_keeps_pcOk {s t : State} (hc : s.Configured) (hp : s.PcOk) (h : step s = .next t) : t.PcOk := by
  rcases step_cases_of_pcOk hp h with ⟨-, rfl⟩ | ⟨hr, hi, -⟩
  · exact hp
  · rw [State.PcOk, step_pc hr h, (step_bus h).1]
    exact hp.advancePc hc hi

/-- An instruction leaves the latch in agreement with the run state: the sentinel sets both, no other touches either (R19,
R75). -/
theorem exec_keeps_causeOk {i : Instr} {s t : State} (hk : s.CauseOk) (h : exec i s = .next t) : t.CauseOk := by
  rcases exec_cases h with ⟨-, rfl⟩ | ⟨rd, v, -, rfl⟩
  · simp [State.CauseOk]
  · exact hk

/-- A step keeps the latch in agreement with the run state: of a Running core only an instruction can touch them (R19, R131). -/
theorem step_keeps_causeOk {s t : State} (hp : s.PcOk) (hk : s.CauseOk) (h : step s = .next t) : t.CauseOk := by
  rcases step_cases_of_pcOk hp h with ⟨-, rfl⟩ | ⟨-, -, ⟨i, he⟩ | rfl⟩
  · exact hk
  · exact exec_keeps_causeOk (s := s.advancePc) hk he
  · exact hk

/-- Every step keeps the invariant: bus and configuration are as before, pc and latch keep their constraints. -/
theorem step_keeps_inv {s t : State} (hs : s.Inv) (h : step s = .next t) : t.Inv := by
  obtain ⟨hc, hm, hp, hk⟩ := hs
  have hbus : t.bus = s.bus := (step_bus h).1
  refine ⟨?_, ?_, step_keeps_pcOk hc hp h, step_keeps_causeOk hp hk h⟩
  · rwa [State.Configured, hbus]
  · rwa [State.MemoryOk, hbus]

/-- Settles O46: every clause of the invariant is kept by every step. -/
theorem stepKeepsInvariant : Obligations.StepKeepsInvariant :=
  fun _ _ hs h => step_keeps_inv hs h

end Sys2Proof.Machine

/-! The state over a step (spec/10_state.md): what an instruction reads, what a step leaves alone, what its event tells -/

namespace Sys2Proof.Machine

/-- A register-register operation gives the same result in any two states that agree on its sources (R14, R84). -/
theorem execR_of_agree (f : Word → Word → Word) (rd : RegIdx) {rs1 rs2 : RegIdx} {s s' : State}
    (h1 : s.readReg rs1 = s'.readReg rs1) (h2 : s.readReg rs2 = s'.readReg rs2) :
    ∃ v, execR f rd rs1 rs2 s = .next (s.writeReg rd v) ∧ execR f rd rs1 rs2 s' = .next (s'.writeReg rd v) :=
  ⟨f (s.readReg rs1) (s.readReg rs2), execR_next f rd rs1 rs2 s, by rw [execR_next, h1, h2]⟩

/-- A register-immediate operation gives the same result in any two states that agree on its source (R14, R84). -/
theorem execI_of_agree (f : Word → Word → Word) (rd : RegIdx) {rs1 : RegIdx} (imm : Word) {s s' : State}
    (h1 : s.readReg rs1 = s'.readReg rs1) :
    ∃ v, execI f rd rs1 imm s = .next (s.writeReg rd v) ∧ execI f rd rs1 imm s' = .next (s'.writeReg rd v) :=
  ⟨f (s.readReg rs1) imm, execI_next f rd rs1 imm s, by rw [execI_next, h1]⟩

/-- Two states that agree on an instruction's sources and on `DIVREM_SIGNED` get the same value written to its destination
(R14, R84). -/
theorem exec_of_agree {i : Instr} {rd : RegIdx} (hd : i.dest? = some rd) {s s' : State}
    (hsigned : s.divremSigned = s'.divremSigned) (hsrc : ∀ r ∈ i.sources, s.readReg r = s'.readReg r) :
    ∃ v, exec i s = .next (s.writeReg rd v) ∧ exec i s' = .next (s'.writeReg rd v) := by
  cases i <;> cases hd <;> simp only [Instr.sources, List.forall_mem_cons] at hsrc
  case addi rs1 imm => exact execI_of_agree aluAdd rd imm hsrc.1
  case add rs1 rs2 => exact execR_of_agree aluAdd rd hsrc.1 hsrc.2.1
  case mul rs1 rs2 => exact execR_of_agree aluMul rd hsrc.1 hsrc.2.1
  case sub rs1 rs2 => exact execR_of_agree aluSub rd hsrc.1 hsrc.2.1
  case sll rs1 rs2 => exact execR_of_agree aluSll rd hsrc.1 hsrc.2.1
  case div rs1 rs2 =>
    simp only [exec, execDiv, ← hsigned]
    exact execR_of_agree _ rd hsrc.1 hsrc.2.1
  case rem rs1 rs2 =>
    simp only [exec, execRem, ← hsigned]
    exact execR_of_agree _ rd hsrc.1 hsrc.2.1

/-- Settles O30: the two executions write the same value, and writing one register is the frame. -/
theorem resultDependsOnSourcesOnly : Obligations.ResultDependsOnSourcesOnly := by
  intro i rd hd s s' hsigned hsrc
  obtain ⟨v, h, h'⟩ := exec_of_agree hd hsigned hsrc
  exact ⟨_, _, h, h', by simp, s.writeReg_sameBut rd v, s'.writeReg_sameBut rd v⟩

/-- Settles O41: the step keeps the bus, and with it every byte and every load's answer. -/
theorem memoryAndConfigurationConstant : Obligations.MemoryAndConfigurationConstant := by
  intro s t h
  obtain ⟨hbus, hsigned⟩ := step_bus h
  exact ⟨hbus, hsigned, fun k => by rw [hbus], fun a w => by rw [hbus]⟩

/-- The six ways a cycle can answer a next state, each with the state it answers and its event (R27, R71, R78 to R81): idle;
the fetch address rejected; and, of a fetched word, the sentinel, an instruction with a destination, a recognised opcode
outside the table, an unrecognised opcode. -/
theorem cycle_event_cases {s t : State} {e : Event} (h : cycle s = .next (t, e)) :
    (s.run = .halted ∧ t = s ∧ e = .idle) ∨
    (s.run = .running ∧ ∃ c, s.fetch = .err (.addressOutOfRange s.pc s.bus.base) ∧ t = s.advancePc.halt c ∧
      e = .haltedNow c) ∨
    (s.run = .running ∧ ∃ w : Raw, s.fetch = .ok w.toNat ∧
      ((recognise w = .instr .zeroSentinel ∧ t = s.advancePc.halt .invalidInstruction ∧
          e = .haltedNow .invalidInstruction) ∨
        (∃ i rd v, recognise w = .instr i ∧ i.dest? = some rd ∧ t = s.advancePc.writeReg rd v ∧ e = .noDiag) ∨
        (recognise w = .unimplemented w ∧ t = s.advancePc ∧ e = .unimplementedInstruction w) ∨
        (recognise w = .unknown w ∧ t = s.advancePc ∧ e = .unknownOpcode w))) := by
  rcases cycle_cases h with hidle | ⟨hr, hb, ht, he⟩ | ⟨hr, -, -, w, hf, ⟨i, hi, hx, he⟩ | hrest⟩
  · exact .inl hidle
  · exact .inr (.inl ⟨hr, _, Bus.load_below _ hb _, ht, he⟩)
  · refine .inr (.inr ⟨hr, w, hf, ?_⟩)
    rcases exec_cases hx with ⟨rfl, ht⟩ | ⟨rd, v, hd, ht⟩
    · exact .inl ⟨hi, ht, he⟩
    · exact .inr (.inl ⟨i, rd, v, hi, hd, ht, by simpa [hd] using he⟩)
  · exact .inr (.inr ⟨hr, w, hf, .inr (.inr hrest)⟩)

/-- Settles O42: of the six ways a cycle ends, only an instruction with a destination writes a register. -/
theorem onlyDestinationRegisterWritten : Obligations.OnlyDestinationRegisterWritten := by
  intro s t e h
  rcases cycle_event_cases h with ⟨-, rfl, rfl⟩ | ⟨-, c, -, rfl, rfl⟩ |
    ⟨-, w, hf, ⟨-, rfl, rfl⟩ | ⟨i, rd, v, hi, hd, rfl, rfl⟩ | ⟨-, rfl, rfl⟩ | ⟨-, rfl, rfl⟩⟩
  · simp
  · simp
  · simp
  · refine ⟨fun hne => absurd rfl hne, fun _ => ⟨w.toNat, i, rd, hf, ?_, hd, fun r hne => ?_⟩⟩
    · rwa [BitVec.ofNat_toNat, BitVec.setWidth_eq]
    · exact s.advancePc.readReg_writeReg_ne v hne
  · simp
  · simp

/-- The event of a cycle, each of the five exactly when, in terms of what the fetched word selects (R27, R78 to R81). -/
theorem event_iff {s t : State} {e : Event} (h : cycle s = .next (t, e)) :
    (e = .idle ↔ s.run = .halted) ∧ (∀ c, e = .haltedNow c ↔ s.run = .running ∧ t.run = .halted ∧ t.cause = c) ∧
    (e = .noDiag ↔ s.run = .running ∧
      ∃ (w : Raw) (i : Instr) (rd : RegIdx), s.fetch = .ok w.toNat ∧ recognise w = .instr i ∧ i.dest? = some rd) ∧
    (∀ w : Raw, e = .unknownOpcode w ↔ s.run = .running ∧ s.fetch = .ok w.toNat ∧ recognise w = .unknown w) ∧
    (∀ w : Raw, e = .unimplementedInstruction w ↔
      s.run = .running ∧ s.fetch = .ok w.toNat ∧ recognise w = .unimplemented w) := by
  rcases cycle_event_cases h with ⟨hr, rfl, rfl⟩ | ⟨hr, c, hf, rfl, rfl⟩ |
    ⟨hr, w, hf, ⟨hw, rfl, rfl⟩ | ⟨i, rd, v, hw, hd, rfl, rfl⟩ | ⟨hw, rfl, rfl⟩ | ⟨hw, rfl, rfl⟩⟩
  · simp [hr]
  · simp [hr, hf]
  · simp [hr, hf, hw, BitVec.toNat_inj, Instr.dest?]
  · simp [hr, hf, hw, hd, BitVec.toNat_inj]
  · simp [hr, hf, hw, BitVec.toNat_inj]
  · simp [hr, hf, hw, BitVec.toNat_inj]

/-- The words of the unknown format as arithmetic on the word (R57, R63). -/
theorem recognise_unknown_iff_toNat (w : Raw) :
    recognise w = .unknown w ↔ w.toNat ≠ 0 ∧ w.toNat % 2 ^ 7 ≠ 0x13 ∧ w.toNat % 2 ^ 7 ≠ 0x33 := by
  rw [recognise_unknown_iff, Ne, Ne, Ne, opcodeOf_eq_iff, opcodeOf_eq_iff, ← BitVec.toNat_inj]
  rfl

/-- The words of a recognised opcode outside the table as arithmetic on the word (R58, R62). -/
theorem recognise_unimplemented_iff_toNat (w : Raw) :
    recognise w = .unimplemented w ↔
      w.toNat % 2 ^ 7 = 0x13 ∧ w.toNat / 2 ^ 12 % 2 ^ 3 ≠ 0 ∨
      w.toNat % 2 ^ 7 = 0x33 ∧ (w.toNat / 2 ^ 12 % 2 ^ 3, w.toNat / 2 ^ 25) ∉
        [(0x0, 0x00), (0x0, 0x20), (0x1, 0x00), (0x0, 0x01), (0x4, 0x01), (0x6, 0x01)] := by
  rw [recognise_unimplemented_iff]
  simp only [List.mem_cons, List.not_mem_nil, Prod.mk.injEq, Ne, opcodeOf_eq_iff, funct3Of_eq_iff, funct7Of_eq_iff]
  rfl

/-- A step answers exactly what its cycle answers, without the event (R71, R27). -/
theorem step_next_iff {s t : State} : step s = .next t ↔ ∃ e, cycle s = .next (t, e) :=
  ⟨cycle_of_step, fun ⟨_, hc⟩ => by rw [step, hc, dropEvent]⟩

/-- Settles O43: the event of each of the six ways a cycle ends, with the diagnosed words as arithmetic. -/
theorem eventTellsWhatHappened : Obligations.EventTellsWhatHappened := by
  refine ⟨fun s t e h => ?_, fun s t => step_next_iff⟩
  obtain ⟨hidle, hhalt, hnone, hunknown, hunimpl⟩ := event_iff h
  refine ⟨hidle, hhalt, hnone, fun w => ?_, fun w => ?_⟩
  · rw [hunknown w, recognise_unknown_iff_toNat]
  · rw [hunimpl w, recognise_unimplemented_iff_toNat]

/-- A driver that is still Running after one step and `k` more took that first step from Running (R82). -/
theorem drive_succ_running {k : Nat} {s t : State} (h : drive (k + 1) s = .next t) (ht : t.run = .running) :
    s.run = .running ∧ ∃ u, step s = .next u ∧ drive k u = .next t := by
  cases hr : s.run with
  | halted =>
    rw [drive_halted hr] at h
    cases h
    rw [hr] at ht
    cases ht
  | running =>
    cases hs : step s with
    | next u => exact ⟨rfl, u, rfl, (drive_next hr hs k).symm.trans h⟩
    | fault f => simp [drive_fault hr hs] at h
    | refused r => simp [drive, hr, hs] at h

/-- Settles O51, by induction on the number of steps: each of them left Running and advanced the pc by 4. -/
theorem pcAfterSteps : Obligations.PcAfterSteps := by
  intro k
  induction k with
  | zero =>
    intro s t h _
    cases h
    exact (Nat.mod_eq_of_lt s.pc.isLt).symm
  | succ k ih =>
    intro s t h ht
    obtain ⟨hr, u, hs, hd⟩ := drive_succ_running h ht
    have hu : u.pc.toNat = (s.pc.toNat + 4) % 2 ^ 64 := by rw [step_pc hr hs, BitVec.toNat_add]; rfl
    rw [ih u t hd ht, hu]
    omega

/-- Settles O28: register 0 reads back what ADDI wrote to it, like any other register. -/
theorem registerZeroIsOrdinary : Obligations.RegisterZeroIsOrdinary := by
  intro rs1 rd imm s
  have hzero : (s.writeReg 0 (s.readReg rs1 + imm)).readReg 0 = s.readReg rs1 + imm := s.readReg_writeReg_self 0 _
  refine ⟨s.writeReg 0 (s.readReg rs1 + imm), _, rfl, hzero, rfl, ?_⟩
  rw [State.readReg_writeReg_self, hzero, aluAdd]

end Sys2Proof.Machine

/-! The memory path (spec/20_memory.md): the value of a load, the bus's offset, the array at construction, no refused step -/

namespace Sys2Proof.Machine

/-- The supported widths, listed (R4, R34). -/
theorem mem_widths_iff (w : Nat) : w ∈ Config.widths ↔ w = 8 ∨ w = 16 ∨ w = 32 ∨ w = 64 := by
  simp [Config.widths]

/-- A supported width is a whole number of bytes (R4). -/
theorem eight_mul_div_of_mem_widths {w : Nat} (hw : w ∈ Config.widths) : 8 * (w / 8) = w := by
  rw [mem_widths_iff] at hw
  omega

/-- A load of a supported width whose bytes lie inside memory succeeds with the number they spell (R33). -/
theorem MemoryController.load_of_fits (m : MemoryController) {i w : Nat} (hw : w ∈ Config.widths)
    (hi : i + w / 8 ≤ m.capacity) : m.load i w = .ok (leNat (m.bytes i (w / 8))) := by
  rw [load_of_mem m hw, if_pos hi]

/-- The number that `n` bytes of memory spell is below `2^(8n)` (R33). -/
theorem MemoryController.leNat_bytes_lt (m : MemoryController) (i n : Nat) : leNat (m.bytes i n) < 2 ^ (8 * n) := by
  simpa using leNat_lt (m.bytes i n)

/-- The number that `n` bytes of memory spell, as a sum: the byte at offset `k` weighs `2^(8k)` (R33). -/
theorem MemoryController.leNat_bytes (m : MemoryController) (i n : Nat) :
    leNat (m.bytes i n) = ∑ k ∈ Finset.range n, (m.byte (i + k)).toNat * 2 ^ (8 * k) := by
  induction n with
  | zero => rfl
  | succ n ih =>
    have hlast : leNat (m.bytes (i + n) 1) = (m.byte (i + n)).toNat := rfl
    rw [bytes_add, leNat_append, bytes_length, hlast, ih, Finset.sum_range_succ, Nat.mul_comm (2 ^ (8 * n))]

/-- Settles O8: the load succeeds with the number its bytes spell, which is their weighted sum. -/
theorem loadIsLittleEndian : Obligations.LoadIsLittleEndian := by
  intro m i w hw hi
  have hw := (mem_widths_iff w).mpr hw
  have hlt := m.leNat_bytes_lt i (w / 8)
  rw [eight_mul_div_of_mem_widths hw] at hlt
  rw [← m.leNat_bytes]
  exact ⟨m.load_of_fits hw hi, hlt⟩

/-- The first `n` of `n + k` bytes spell the low bits of the whole number (R41). -/
theorem MemoryController.leNat_bytes_add_mod (m : MemoryController) (i n k : Nat) :
    leNat (m.bytes i (n + k)) % 2 ^ (8 * n) = leNat (m.bytes i n) := by
  rw [bytes_add, leNat_append, bytes_length, Nat.add_mul_mod_self_left, Nat.mod_eq_of_lt (m.leNat_bytes_lt i n)]

/-- The bytes above the first `n` spell the high bits of the whole number (R41). -/
theorem MemoryController.leNat_bytes_add_div (m : MemoryController) (i n k : Nat) :
    leNat (m.bytes i (n + k)) / 2 ^ (8 * n) = leNat (m.bytes (i + n) k) := by
  rw [bytes_add, leNat_append, bytes_length, Nat.add_mul_div_left _ _ (by positivity),
    Nat.div_eq_of_lt (m.leNat_bytes_lt i n), Nat.zero_add]

/-- Where a load succeeds, a narrower load at the same index answers its low bits (R41). -/
theorem MemoryController.load_narrower {m : MemoryController} {i w w' v : Nat} (h : m.load i w = .ok v)
    (hw' : w' ∈ Config.widths) (hle : w' ≤ w) : m.load i w' = .ok (v % 2 ^ w') := by
  obtain ⟨-, hi, rfl⟩ := load_ok h
  obtain ⟨k, hk⟩ := Nat.exists_eq_add_of_le (Nat.div_le_div_right (c := 8) hle)
  have hlow := m.leNat_bytes_add_mod i (w' / 8) k
  rw [← hk, eight_mul_div_of_mem_widths hw'] at hlow
  rw [hlow]
  exact m.load_of_fits hw' (by omega)

/-- Where a load succeeds, the load of its upper half answers its high bits (R41). -/
theorem MemoryController.load_upper_half {m : MemoryController} {i w v : Nat} (h : m.load i (w + w) = .ok v)
    (hw : w ∈ Config.widths) : m.load (i + w / 8) w = .ok (v / 2 ^ w) := by
  have hbits := eight_mul_div_of_mem_widths hw
  obtain ⟨-, hi, rfl⟩ := load_ok h
  have hbytes : (w + w) / 8 = w / 8 + w / 8 := by omega
  have hhigh := m.leNat_bytes_add_div i (w / 8) (w / 8)
  rw [← hbytes, hbits] at hhigh
  rw [hhigh]
  exact m.load_of_fits hw (by omega)

/-- Settles O11: three narrower loads at the same index and one of the upper half. -/
theorem mixedWidthLoadsAgree : Obligations.MixedWidthLoadsAgree := by
  intro m i v h
  exact ⟨MemoryController.load_narrower h (by decide) (by decide), MemoryController.load_narrower h (by decide) (by decide),
    MemoryController.load_narrower h (by decide) (by decide), MemoryController.load_upper_half (w := 32) h (by decide)⟩

@[simp] theorem memoryReset_capacity (size : Nat) (image : List Byte) : (memoryReset size image).capacity = size :=
  MemoryController.overlay_capacity _ _ _

/-- The zero-filled region is in canonical form: no byte is listed (R45). -/
theorem zeroFilled_wf (size : Nat) : MemoryController.wf { capacity := size, cells := [] } = true := rfl

/-- The array after construction is in canonical form when the image fits (R45). -/
theorem memoryReset_wf {size : Nat} {image : List Byte} (h : image.length ≤ size) : (memoryReset size image).wf = true :=
  MemoryController.overlay_wf (zeroFilled_wf size) (show 0 + image.length ≤ size by omega)

/-- The bytes after construction: the image from offset 0, zero above it (R45). -/
theorem byte_memoryReset {size : Nat} {image : List Byte} (h : image.length ≤ size) (k : Nat) :
    (memoryReset size image).byte k = if hk : k < image.length then image[k] else 0#8 := by
  rw [memoryReset, MemoryController.byte_overlay (zeroFilled_wf size) (show 0 + image.length ≤ size by omega)]
  simp only [Nat.zero_le, true_and, Nat.zero_add, Nat.sub_zero]
  rfl

/-- Construction succeeds within R5 when the image fits, with the array zero-filled and overlaid (R45, R150). -/
theorem construct_of_fits {p : Config.Params} {image : List Byte} (hp : p.valid = true) (hi : image.length ≤ p.memSize) :
    ∃ s, construct p image = .ok s ∧ s.bus.memory = memoryReset p.memSize image :=
  ⟨_, by rw [construct, if_neg (by simp [hp]), if_neg (by omega)], rfl⟩

/-- An image longer than the memory makes construction fail, whatever the configuration (R45). -/
theorem construct_of_too_long (p : Config.Params) {image : List Byte} (h : p.memSize < image.length) :
    ∃ e, construct p image = .error e := by
  cases hc : construct p image with
  | error e => exact ⟨e, rfl⟩
  | ok s =>
    obtain ⟨-, hfits, -⟩ := construct_ok hc
    omega

/-- Settles O12: what construction gives for an image that fits, and its failure for a longer one, each a lemma above. -/
theorem constructionPlacesImage : Obligations.ConstructionPlacesImage := by
  refine ⟨fun p image hsize htop hfits => ?_, fun p _ h => construct_of_too_long p h⟩
  obtain ⟨s, hs, hmem⟩ := construct_of_fits ((valid_iff p).mpr ⟨hsize, htop⟩) hfits
  refine ⟨s, hs, by rw [hmem, memoryReset_capacity], fun k hk => ?_, fun k hk => ?_⟩
  · rw [hmem, byte_memoryReset hfits, dif_pos hk]
  · rw [hmem, byte_memoryReset hfits, dif_neg (by omega)]

/-- No cycle is refused: the fetch asks for a supported width, and every fetched word has its effect (R34, R78). -/
theorem cycle_ne_refused (s : State) (r : Refusal) : cycle s ≠ .refused r := by
  cases hr : s.run with
  | halted => simp [cycle_halted hr]
  | running =>
    rw [cycle_running hr]
    rcases fetch_cases s with ⟨-, hf⟩ | ⟨-, -, hf⟩ | ⟨-, -, hf⟩
    · simp [hf, afterFetch]
    · simp [hf, afterFetch]
    · obtain ⟨t, ht⟩ := executeWord_next (BitVec.ofNat 32 (leNat (s.bus.memory.bytes (s.pc - s.bus.base).toNat 4)))
        s.advancePc
      rw [hf, afterFetch, ht]
      nofun

/-- Settles O40: a step is refused only with its cycle. -/
theorem noStepIsRefused : Obligations.NoStepIsRefused := by
  intro s r h
  rw [step] at h
  cases hc : cycle s with
  | next t => simp [hc, dropEvent] at h
  | fault f => simp [hc, dropEvent] at h
  | refused r' => exact cycle_ne_refused s r' hc

/-- The pc at the base meets its constraint, whatever the capacity (R17). -/
theorem State.pcOk_of_pc_eq_base {s : State} (h : s.pc = s.bus.base) : s.PcOk := by
  simp [State.PcOk, h]

/-- Settles O48, clause by clause: the checks of construction give the configuration's constraints and the array's form. -/
theorem constructionHasInvariant : Obligations.ConstructionHasInvariant := by
  intro p image s h
  obtain ⟨hvalid, hfits, rfl⟩ := construct_ok h
  have hconfigured := (valid_iff p).mp hvalid
  refine ⟨?_, memoryReset_wf hfits, State.pcOk_of_pc_eq_base rfl, fun _ => rfl, fun hr => ?_⟩
  · simpa [State.Configured] using hconfigured
  · cases hr

/-- Settles O10: the bus's comparison and its offset, as numbers. -/
theorem busMapsAddresses : Obligations.BusMapsAddresses := by
  refine fun b a w => ⟨fun h => b.load_below (BitVec.lt_def.mpr h) w, fun h => ?_⟩
  have hle : b.base ≤ a := BitVec.le_def.mpr h
  rw [b.load_above (BitVec.not_lt.mpr hle), BitVec.toNat_sub_of_le hle]

end Sys2Proof.Machine

/-! Encoding (spec/30_encoding.md): the formats and their fields as numbers, the rows' masks, the no-op -/

namespace Sys2Proof

/-- Opcode 0x13 decodes to the I layout (R57). -/
theorem decode_opImm {w : Raw} (h : opcodeOf w = 0x13#7) : decode w = layoutI w := if_pos h

/-- Opcode 0x33 decodes to the R layout (R57). -/
theorem decode_op {w : Raw} (h : opcodeOf w = 0x33#7) : decode w = layoutR w := by
  rw [decode, if_neg (by simp [h]), if_pos h]

/-- Any other opcode decodes to the unknown format (R56, R57). -/
theorem decode_other {w : Raw} (h : opcodeOf w ≠ 0x13#7) (h' : opcodeOf w ≠ 0x33#7) : decode w = .unknown w := by
  rw [decode, if_neg h, if_neg h']

/-- The three formats a word can decode to (R57). -/
theorem decode_cases (w : Raw) : decode w = layoutI w ∨ decode w = layoutR w ∨ decode w = .unknown w := by
  by_cases h : opcodeOf w = 0x13#7
  · exact .inl (decode_opImm h)
  · by_cases h' : opcodeOf w = 0x33#7
    · exact .inr (.inl (decode_op h'))
    · exact .inr (.inr (decode_other h h'))

theorem rdOf_toNat (w : Raw) : (rdOf w).toNat = w.toNat / 2 ^ 7 % 2 ^ 5 := toNat_field w 7 5
theorem funct3Of_toNat (w : Raw) : (funct3Of w).toNat = w.toNat / 2 ^ 12 % 2 ^ 3 := toNat_field w 12 3
theorem rs1Of_toNat (w : Raw) : (rs1Of w).toNat = w.toNat / 2 ^ 15 % 2 ^ 5 := toNat_field w 15 5
theorem rs2Of_toNat (w : Raw) : (rs2Of w).toNat = w.toNat / 2 ^ 20 % 2 ^ 5 := toNat_field w 20 5
theorem funct7Of_toNat (w : Raw) : (funct7Of w).toNat = w.toNat / 2 ^ 25 := ((funct7Of_eq_iff w _).mp rfl).symm

/-- The I-immediate as a signed number: the word's top 12 bits, of which bit 31 is the sign (R53). -/
theorem immIOf_toInt (w : Raw) :
    (immIOf w).toInt =
      if w.toNat < 2 ^ 31 then (w.toNat / 2 ^ 20 : Int) else (w.toNat / 2 ^ 20 : Int) - 2 ^ 12 := by
  have hw := w.isLt
  rw [immIOf, BitVec.toInt_signExtend_of_le (by decide), BitVec.toInt_eq_toNat_cond, toNat_field]
  split_ifs <;> omega

/-- The U-immediate as a signed number: the word with its low 12 bits cleared, of which bit 31 is the sign (R55). -/
theorem immUOf_toInt (w : Raw) :
    (immUOf w).toInt =
      if w.toNat < 2 ^ 31 then (w.toNat / 2 ^ 12 * 2 ^ 12 : Int) else (w.toNat / 2 ^ 12 * 2 ^ 12 : Int) - 2 ^ 32 := by
  have hw := w.isLt
  have hnat : (w.extractLsb' 12 20 ++ 0#12).toNat = 2 ^ 12 * (w.toNat / 2 ^ 12) := by
    rw [toNat_append_eq, toNat_field, BitVec.toNat_ofNat]
    omega
  rw [immUOf, BitVec.toInt_signExtend_of_le (by decide), BitVec.toInt_eq_toNat_cond, hnat]
  split_ifs <;> omega

/-- Settles O5: the opcode picks the layout, and each field of the layout is its number. -/
theorem opcodeSelectsFormat : Obligations.OpcodeSelectsFormat := by
  refine fun raw => ⟨fun h => ?_, fun h => ?_, fun h h' => ?_⟩
  · have ho : opcodeOf raw = 0x13#7 := (opcodeOf_eq_iff raw _).mpr h
    exact ⟨_, _, _, _, decode_opImm ho, rdOf_toNat raw, funct3Of_toNat raw, rs1Of_toNat raw, immIOf_toInt raw⟩
  · have ho : opcodeOf raw = 0x33#7 := (opcodeOf_eq_iff raw _).mpr h
    exact ⟨_, _, _, _, _, decode_op ho, rdOf_toNat raw, funct3Of_toNat raw, rs1Of_toNat raw, rs2Of_toNat raw,
      funct7Of_toNat raw⟩
  · exact decode_other (mt (opcodeOf_eq_iff raw _).mp h) (mt (opcodeOf_eq_iff raw _).mp h')

/-- Settles O6: the U layout's fields are their numbers, and none of the three decoded formats is the U-format. -/
theorem upperImmediateFormat : Obligations.UpperImmediateFormat := by
  refine ⟨fun raw => ⟨_, _, rfl, rdOf_toNat raw, immUOf_toInt raw⟩, fun raw rd imm => ?_⟩
  rcases decode_cases raw with h | h | h <;> rw [h] <;> nofun

/-- Settles O7: none of the three decoded formats is the S-format. -/
theorem storeFormatUnreachable : Obligations.StoreFormatUnreachable := by
  refine ⟨fun raw immLo funct3 rs1 rs2 immHi => ?_, Machine.recognise_ne_unreachableFormat⟩
  rcases decode_cases raw with h | h | h <;> rw [h] <;> nofun

/-- The word an R row is selected from is the word of the row's instruction (R52, R58). -/
theorem encode_of_selectR {w : Raw} {i : Instr} (ho : opcodeOf w = 0x33#7)
    (h : selectR w (rdOf w) (funct3Of w) (rs1Of w) (rs2Of w) (funct7Of w) = .instr i) : encode i = w := by
  have hw := encodeR_fields w
  rw [selectR] at h
  split_ifs at h with hrow hrow hrow hrow hrow hrow <;> cases h <;> rwa [ho, hrow.1, hrow.2] at hw

/-- A word that is an instruction is the word of that instruction. -/
theorem encode_of_recognise {w : Raw} {i : Instr} (h : recognise w = .instr i) : encode i = w := by
  by_cases h0 : w = 0#32
  · subst h0
    cases h
    rfl
  by_cases h1 : opcodeOf w = 0x13#7
  · rw [recognise_opImm h1] at h
    split_ifs at h with h3
    cases h
    have hw := encodeI_fields w
    rwa [h1, h3, ← low_signExtend (w.extractLsb' 20 12)] at hw
  by_cases h2 : opcodeOf w = 0x33#7
  · exact encode_of_selectR h2 (recognise_op h2 ▸ h)
  · rw [recognise_other h0 h1 h2] at h
    cases h

/-- The word of any instruction, under its row's mask, is its row's match (R58). -/
theorem encode_and_mask (i : Instr) : encode i &&& i.mask = i.pattern := by
  cases i
  case addi rd rs1 imm => exact Laws.RowPattern.addi rd rs1 imm
  case add rd rs1 rs2 => exact Laws.RowPattern.add rd rs1 rs2
  case mul rd rs1 rs2 => exact Laws.RowPattern.mul rd rs1 rs2
  case sub rd rs1 rs2 => exact Laws.RowPattern.sub rd rs1 rs2
  case sll rd rs1 rs2 => exact Laws.RowPattern.sll rd rs1 rs2
  case div rd rs1 rs2 => exact Laws.RowPattern.div rd rs1 rs2
  case rem rd rs1 rs2 => exact Laws.RowPattern.rem rd rs1 rs2
  case zeroSentinel => exact Laws.RowPattern.zeroSentinel

/-- A word recognised as an instruction, under the mask of the instruction's row, is the row's match (R58). -/
theorem and_mask_of_recognise {w : Raw} {i : Instr} (h : recognise w = .instr i) : w &&& i.mask = i.pattern := by
  rw [← encode_and_mask i, encode_of_recognise h]

/-- The mask of the R rows keeps the fields the operation is selected by (R58). -/
theorem key_and_maskR (w : Raw) :
    opcodeOf (w &&& 0xFE00707F#32) = opcodeOf w ∧ funct3Of (w &&& 0xFE00707F#32) = funct3Of w ∧
      funct7Of (w &&& 0xFE00707F#32) = funct7Of w := by
  have hw := Laws.RowPattern.encodeR_masked (funct7Of w) (rs2Of w) (rs1Of w) (funct3Of w) (rdOf w) (opcodeOf w)
  rw [encodeR_fields] at hw
  obtain ⟨hop, -, h3, -, -, h7⟩ := fields_encodeR (funct7Of w) 0 0 (funct3Of w) 0 (opcodeOf w)
  rw [hw]
  exact ⟨hop, h3, h7⟩

/-- The mask of ADDI's row keeps the fields the operation is selected by (R58). -/
theorem key_and_maskI (w : Raw) :
    opcodeOf (w &&& 0x0000707F#32) = opcodeOf w ∧ funct3Of (w &&& 0x0000707F#32) = funct3Of w := by
  have hw := Laws.RowPattern.encodeI_masked (w.extractLsb' 20 12) (rs1Of w) (funct3Of w) (rdOf w) (opcodeOf w)
  rw [encodeI_fields] at hw
  obtain ⟨hop, -, h3, -, -⟩ := fields_encodeI 0 0 (funct3Of w) 0 (opcodeOf w)
  rw [hw]
  exact ⟨hop, h3⟩

/-- A word that meets the match of ADDI's row is that row's instruction (R58). -/
theorem recognise_of_and_maskI {w : Raw} (h : w &&& 0x0000707F#32 = 0x00000013#32) :
    recognise w = .instr (.addi (rdOf w) (rs1Of w) (immIOf w)) := by
  obtain ⟨hop, h3⟩ := key_and_maskI w
  rw [h] at hop h3
  exact (recognise_opImm hop.symm).trans (if_pos h3.symm)

/-- A word that meets a match under the mask of the R rows selects by the key fields of the match (R58). -/
theorem recognise_of_and_maskR {w p : Raw} (h : w &&& 0xFE00707F#32 = p) (hp : opcodeOf p = 0x33#7) :
    recognise w = selectR w (rdOf w) (funct3Of p) (rs1Of w) (rs2Of w) (funct7Of p) := by
  obtain ⟨hop, h3, h7⟩ := key_and_maskR w
  rw [h] at hop h3 h7
  rw [recognise_op (hop.symm.trans hp), h3, h7]

/-- An R row, given by its match `p` and its constructor `mk`: exactly the words that meet the match are recognised as
that row's instruction (R58). -/
theorem and_maskR_iff {p : Raw} {mk : RegIdx → RegIdx → RegIdx → Instr} (hp : opcodeOf p = 0x33#7)
    (hselect : ∀ w rd rs1 rs2, selectR w rd (funct3Of p) rs1 rs2 (funct7Of p) = .instr (mk rd rs1 rs2))
    (hrow : ∀ rd rs1 rs2, (mk rd rs1 rs2).mask = 0xFE00707F#32 ∧ (mk rd rs1 rs2).pattern = p) (w : Raw) :
    w &&& 0xFE00707F#32 = p ↔ ∃ rd rs1 rs2, recognise w = .instr (mk rd rs1 rs2) := by
  refine ⟨fun h => ⟨_, _, _, (recognise_of_and_maskR h hp).trans (hselect w _ _ _)⟩, fun ⟨rd, rs1, rs2, h⟩ => ?_⟩
  obtain ⟨hmask, hpattern⟩ := hrow rd rs1 rs2
  rw [← hmask, and_mask_of_recognise h, hpattern]

/-- Only the zero word is zero under the full mask, and it is the sentinel (R61). -/
theorem and_allOnes_iff_zeroSentinel (w : Raw) : w &&& 0xFFFFFFFF#32 = 0#32 ↔ recognise w = .instr .zeroSentinel := by
  refine ⟨fun h => ?_, and_mask_of_recognise⟩
  have h0 : w = 0#32 := (BitVec.and_allOnes (x := w)).symm.trans h
  rw [h0]
  rfl

/-- Settles O4, row by row: the match holds the key fields by which the row is selected. -/
theorem maskAndMatchSelectTheRow : Obligations.MaskAndMatchSelectTheRow := by
  refine fun w => ⟨?addi, ?add, ?mul, ?sub, ?sll, ?div, ?rem, ?zeroSentinel⟩
  case addi => exact ⟨fun h => ⟨_, _, _, recognise_of_and_maskI h⟩, fun ⟨_, _, _, h⟩ => and_mask_of_recognise h⟩
  case add => exact and_maskR_iff (mk := .add) rfl (fun _ _ _ _ => rfl) (fun _ _ _ => ⟨rfl, rfl⟩) w
  case mul => exact and_maskR_iff (mk := .mul) rfl (fun _ _ _ _ => rfl) (fun _ _ _ => ⟨rfl, rfl⟩) w
  case sub => exact and_maskR_iff (mk := .sub) rfl (fun _ _ _ _ => rfl) (fun _ _ _ => ⟨rfl, rfl⟩) w
  case sll => exact and_maskR_iff (mk := .sll) rfl (fun _ _ _ _ => rfl) (fun _ _ _ => ⟨rfl, rfl⟩) w
  case div => exact and_maskR_iff (mk := .div) rfl (fun _ _ _ _ => rfl) (fun _ _ _ => ⟨rfl, rfl⟩) w
  case rem => exact and_maskR_iff (mk := .rem) rfl (fun _ _ _ _ => rfl) (fun _ _ _ => ⟨rfl, rfl⟩) w
  case zeroSentinel => exact and_allOnes_iff_zeroSentinel w

end Sys2Proof

namespace Sys2Proof.Machine

/-- Writing a register what it holds leaves the state as it was (R12). -/
theorem State.writeReg_readReg_self (s : State) (i : RegIdx) : s.writeReg i (s.readReg i) = s := by
  rw [State.writeReg, State.readReg, Vector.set_getElem_self]

/-- Settles O29: adding 0 to a register and writing it back leaves the state as it was. -/
theorem nopByArithmetic : Obligations.NopByArithmetic := by
  intro s
  have hsum : aluAdd (s.readReg 0) 0 = s.readReg 0 := BitVec.add_zero _
  rw [exec, execAddi, execI_next, hsum, State.writeReg_readReg_self]

end Sys2Proof.Machine

/-! Fetch and step (spec/40_fetch_and_step.md): the answer of a fetch, the step it leads to, and where a run ends -/

namespace Sys2Proof.Machine

/-! The three answers of a fetch, in numbers (R72, R74, R76) -/

/-- A fetch below the base is rejected with the address presented and the base (R74). -/
theorem State.fetch_below {s : State} (hb : s.pc.toNat < s.bus.base.toNat) :
    s.fetch = .err (.addressOutOfRange s.pc s.bus.base) :=
  s.bus.load_below (BitVec.lt_def.mpr hb) _

/-- A fetch whose four bytes lie inside memory answers the number they spell (R72). -/
theorem State.fetch_inside {s : State} (hb : s.bus.base.toNat ≤ s.pc.toNat)
    (hc : s.pc.toNat - s.bus.base.toNat + 4 ≤ s.bus.memory.capacity) :
    s.fetch = .ok (leNat (s.bus.memory.bytes (s.pc.toNat - s.bus.base.toNat) 4)) :=
  ((busMapsAddresses s.bus s.pc 32).2 hb).trans (MemoryController.load_of_fits _ (by decide) hc)

/-- A fetch at or above the base whose last byte lies past the end of memory is out of bounds (R76). -/
theorem State.fetch_pastEnd {s : State} (hb : s.bus.base.toNat ≤ s.pc.toNat)
    (hc : s.bus.memory.capacity < s.pc.toNat - s.bus.base.toNat + 4) :
    s.fetch = .outOfBounds (s.pc.toNat - s.bus.base.toNat) 32 s.bus.memory.capacity :=
  ((busMapsAddresses s.bus s.pc 32).2 hb).trans
    ((MemoryController.load_of_mem _ (by decide)).trans (if_neg (Nat.not_le.mpr hc)))

/-- Settles O31: the number the four bytes spell, written out. -/
theorem fetchReadsWordAtPc : Obligations.FetchReadsWordAtPc := by
  intro s hb hc
  rw [State.fetch_inside hb hc, MemoryController.leNat_bytes]
  simp [Finset.sum_range_succ]

/-! The cycle of a fetched word (R75, R78 to R80) -/

/-- A Running core decodes and executes the word it fetched, on the state whose pc has advanced (R71). -/
theorem cycle_of_fetch {s : State} {v : Nat} (hr : s.run = .running) (hf : s.fetch = .ok v) :
    cycle s = executeWord (BitVec.ofNat 32 v) s.advancePc := by
  rw [cycle_running hr, hf, afterFetch]

/-- Executing a word that selects an instruction (R78). -/
theorem executeWord_instr {w : Raw} {i : Instr} (h : recognise w = .instr i) (s : State) :
    executeWord w s = withEvent (exec i s) := by
  rw [executeWord, h]

/-- Executing a word of an unrecognised opcode leaves the state as it is (R79). -/
theorem executeWord_unknown {w : Raw} (h : recognise w = .unknown w) (s : State) :
    executeWord w s = .next (s, .unknownOpcode w) := by
  rw [executeWord, h]

/-- Executing a word of a recognised opcode outside the table leaves the state as it is (R80). -/
theorem executeWord_unimplemented {w : Raw} (h : recognise w = .unimplemented w) (s : State) :
    executeWord w s = .next (s, .unimplementedInstruction w) := by
  rw [executeWord, h]

/-- The event added to an instruction's outcome is what a step drops (R27, R71). -/
theorem dropEvent_withEvent (o : Host.Outcome State Fault Refusal) : dropEvent (withEvent o) = o := by
  cases o <;> rfl

/-- The sentinel is the one instruction without a destination (R75, R84). -/
theorem dest?_eq_none_iff (i : Instr) : i.dest? = none ↔ i = .zeroSentinel := by
  cases i <;> simp [Instr.dest?]

/-- The event of an executed instruction depends on whether it is the sentinel (R27, R78). -/
theorem withEvent_exec {i : Instr} {s t : State} (hr : s.run = .running) (h : exec i s = .next t) :
    withEvent (exec i s) = .next (t, if i = .zeroSentinel then .haltedNow .invalidInstruction else .noDiag) := by
  simp only [h, withEvent, executedEvent_eq hr h, dest?_eq_none_iff]

/-- A fetched zero word halts the core, the pc advanced (R75). -/
theorem cycle_of_fetch_zero {s : State} (hr : s.run = .running) (hf : s.fetch = .ok 0) :
    cycle s = .next (s.advancePc.halt .invalidInstruction, .haltedNow .invalidInstruction) := by
  rw [cycle_of_fetch hr hf, executeWord_instr (i := .zeroSentinel) rfl]
  rfl

/-- A Running core whose pc is below the base halts with the cause of the rejection, the pc advanced (R74). -/
theorem cycle_below {s : State} (hr : s.run = .running) (hb : s.pc.toNat < s.bus.base.toNat) :
    cycle s = .next (s.advancePc.halt (.addressOutOfRange s.pc s.bus.base),
      .haltedNow (.addressOutOfRange s.pc s.bus.base)) := by
  rw [cycle_running hr, State.fetch_below hb, afterFetch]

/-- Settles O27: entry to Halted keeps the pc and the data. -/
theorem zeroSentinelEffect : Obligations.ZeroSentinelEffect :=
  fun s => ⟨s.halt .invalidInstruction, rfl, rfl, rfl, rfl, s.halt_sameData _⟩

/-- Settles O32: the four bytes are the fetched word, so the decoded instruction is the executed one. -/
theorem stepRunsDecodedInstruction : Obligations.StepRunsDecodedInstruction := by
  intro s i hr hb hc hd
  have hi : recognise (BitVec.ofNat 32 (leNat (s.bus.memory.bytes (s.pc.toNat - s.bus.base.toNat) 4))) = .instr i :=
    congrArg Prod.fst (Option.some.inj hd)
  have hcycle : cycle s = withEvent (exec i s.advancePc) := by
    rw [cycle_of_fetch hr (State.fetch_inside hb hc), executeWord_instr hi]
  obtain ⟨t, ht⟩ := exec_next i s.advancePc
  refine ⟨?_, t, hcycle.trans (withEvent_exec hr ht)⟩
  rw [step, hcycle, dropEvent_withEvent]
  rfl

/-- Settles O33: the word selects the unknown format, whose execution leaves the advanced state as it is. -/
theorem unknownOpcodeIsNoOp : Obligations.UnknownOpcodeIsNoOp := by
  intro s w hr hcause hf h0 hopImm hop
  have hw : recognise w = .unknown w := (recognise_unknown_iff_toNat w).mpr ⟨h0, hopImm, hop⟩
  refine ⟨s.advancePc, ?_, rfl, hr, hcause, s.advancePc_sameData⟩
  rw [cycle_of_fetch hr hf, BitVec.ofNat_toNat, BitVec.setWidth_eq, executeWord_unknown hw]

/-- Settles O34: the word selects no row of the table, and its execution leaves the advanced state as it is. -/
theorem unimplementedIsNoOp : Obligations.UnimplementedIsNoOp := by
  intro s w hr hcause hf hkey
  have hw : recognise w = .unimplemented w := (recognise_unimplemented_iff_toNat w).mpr hkey
  refine ⟨s.advancePc, ?_, rfl, hr, hcause, s.advancePc_sameData⟩
  rw [cycle_of_fetch hr hf, BitVec.ofNat_toNat, BitVec.setWidth_eq, executeWord_unimplemented hw]

/-- Settles O36: the rejected fetch halts with that cause; an instruction and a no-op leave the cause or set another. -/
theorem rejectedAddressHalts : Obligations.RejectedAddressHalts := by
  refine ⟨fun s hr hb => ⟨_, cycle_below hr hb, rfl, rfl, rfl, s.advancePc_sameData.trans (State.halt_sameData _ _)⟩,
    fun s t a b h hcause => ?_⟩
  rcases step_cases h with ⟨-, rfl⟩ | ⟨hr, hb, rfl⟩ | ⟨-, -, -, w, -, ⟨i, -, he⟩ | ⟨-, rfl⟩⟩
  · exact .inl hcause
  · cases hcause
    exact .inr ⟨hr, BitVec.lt_def.mp hb, rfl, rfl⟩
  · rcases exec_cases he with ⟨-, rfl⟩ | ⟨rd, v, -, rfl⟩
    · cases hcause
    · exact .inl hcause
  · exact .inl hcause

/-! The outcome of a step, by the run state and where the pc lies (R71, R73, R76, R81) -/

theorem step_halted {s : State} (hr : s.run = .halted) : step s = .next s :=
  step_next_iff.mpr ⟨_, cycle_halted hr⟩

theorem step_below {s : State} (hr : s.run = .running) (hb : s.pc.toNat < s.bus.base.toNat) :
    step s = .next (s.advancePc.halt (.addressOutOfRange s.pc s.bus.base)) :=
  step_next_iff.mpr ⟨_, cycle_below hr hb⟩

/-- A Running core that fetched a word goes on: every word has its effect (R78 to R80). -/
theorem step_inside {s : State} (hr : s.run = .running) (hb : s.bus.base.toNat ≤ s.pc.toNat)
    (hc : s.pc.toNat - s.bus.base.toNat + 4 ≤ s.bus.memory.capacity) : ∃ t, step s = .next t := by
  obtain ⟨⟨t, e⟩, ht⟩ := executeWord_next
    (BitVec.ofNat 32 (leNat (s.bus.memory.bytes (s.pc.toNat - s.bus.base.toNat) 4))) s.advancePc
  exact ⟨t, step_next_iff.mpr ⟨e, (cycle_of_fetch hr (State.fetch_inside hb hc)).trans ht⟩⟩

theorem step_pastEnd {s : State} (hr : s.run = .running) (hb : s.bus.base.toNat ≤ s.pc.toNat)
    (hc : s.bus.memory.capacity < s.pc.toNat - s.bus.base.toNat + 4) :
    step s = .fault (.memoryOutOfBounds (s.pc.toNat - s.bus.base.toNat) 32 s.bus.memory.capacity) := by
  rw [step, cycle_running hr, State.fetch_pastEnd hb hc, afterFetch, dropEvent]

/-- A step of a Running core answers a next state, or its fetch lies past the end of memory (R74, R76, R78). -/
theorem step_next_or_pastEnd {s : State} (hr : s.run = .running) :
    (∃ t, step s = .next t) ∨
    (s.bus.base.toNat ≤ s.pc.toNat ∧ s.bus.memory.capacity < s.pc.toNat - s.bus.base.toNat + 4) := by
  rcases Nat.lt_or_ge s.pc.toNat s.bus.base.toNat with hb | hb
  · exact .inl ⟨_, step_below hr hb⟩
  · rcases Nat.lt_or_ge s.bus.memory.capacity (s.pc.toNat - s.bus.base.toNat + 4) with hc | hc
    · exact .inr ⟨hb, hc⟩
    · exact .inl (step_inside hr hb hc)

/-- Settles O37: idling and every fetch that is not past the end answer a next state. -/
theorem fetchPastEndFaults : Obligations.FetchPastEndFaults := by
  refine fun s f => ⟨fun h => ?_, fun ⟨hr, hb, hc, hf⟩ => by rw [step_pastEnd hr hb hc, hf]⟩
  cases hr : s.run with
  | halted =>
    rw [step_halted hr] at h
    cases h
  | running =>
    rcases step_next_or_pastEnd hr with ⟨t, ht⟩ | ⟨hb, hc⟩
    · rw [ht] at h
      cases h
    · rw [step_pastEnd hr hb hc] at h
      cases h
      exact ⟨rfl, hb, hc, rfl⟩

/-- Settles O39: the step answers a next state, whose pc has advanced, or its fetch lies past the end of memory. -/
theorem everyFetchAdvancesPc : Obligations.EveryFetchAdvancesPc := by
  intro s hr
  rcases step_next_or_pastEnd hr with ⟨t, ht⟩ | ⟨hb, hc⟩
  · exact .inl ⟨t, ht, by rw [step_pc hr ht, BitVec.toNat_add]; rfl⟩
  · exact .inr ⟨_, _, step_pastEnd hr hb hc⟩

/-- Settles O44: of the ways a step can go, only the rejected fetch and the sentinel, the zero word, leave Running. -/
theorem haltsOnlyOnFetchFailure : Obligations.HaltsOnlyOnFetchFailure := by
  intro s t hr h ht
  obtain ⟨e, hcycle⟩ := cycle_of_step h
  have hrun : ¬ s.run = .halted := by simp [hr]
  rcases cycle_cases hcycle with ⟨hh, -⟩ | ⟨-, hb, -⟩ | ⟨-, -, -, w, hf, ⟨i, hi, he, -⟩ | ⟨-, rfl, -⟩ | ⟨-, rfl, -⟩⟩
  · exact absurd hh hrun
  · exact .inl (BitVec.lt_def.mp hb)
  · rcases exec_cases he with ⟨rfl, -⟩ | ⟨rd, v, -, rfl⟩
    · exact .inr (by simpa [eq_zero_of_recognise hi] using hf)
    · exact absurd ht hrun
  · exact absurd ht hrun
  · exact absurd ht hrun

/-! Runs (R75, R81 to R83) -/

/-- The host's run of any core takes one step at a time. -/
theorem core_run_next (M : Host.Core) {s t : M.State} (h : M.step s = .next t) (n : Nat) :
    M.run (n + 1) s = M.run n t := by
  rw [Host.Core.run, h]

/-- Settles O38, by induction on the number of steps: each of them answers the state it was given. -/
theorem haltedCoreIdles : Obligations.HaltedCoreIdles := by
  intro s hr
  refine ⟨cycle_halted hr, fun n => ?_⟩
  induction n with
  | zero => rfl
  | succ n ih => exact (core_run_next core (step_halted hr) n).trans ih

/-- A step from Running under the invariant has advanced the fetch index by 4, without a wrap: the fetched word lay inside
memory (R17, R73). -/
theorem step_fetchIndex {s t : State} (hs : s.Inv) (hr : s.run = .running) (h : step s = .next t) :
    t.fetchIndex = s.fetchIndex + 4 := by
  obtain ⟨hc, -, hp, -⟩ := hs
  rcases step_cases_of_pcOk hp h with ⟨hh, -⟩ | ⟨-, hi, -⟩
  · simp [hr] at hh
  · have hpc := hp.pc_add_four_toNat hc hi
    have hbase := hp.1
    rw [(step_keeps_pcOk hc hp h).fetchIndex_eq, hp.fetchIndex_eq, step_pc hr h, (step_bus h).1, hpc]
    omega

/-- A run of `n` steps has ended: Halted with cause `InvalidInstruction`, or in the fault `MemoryOutOfBounds` (R83). -/
def EndsWithin (n : Nat) (s : State) : Prop :=
  (∃ t, drive n s = .next t ∧ t.Finished ∧ t.cause = .invalidInstruction) ∨
  (∃ i c, drive n s = .fault (.memoryOutOfBounds i 32 c))

/-- A run that ends within `n` steps of the state after a step ends one step later. -/
theorem EndsWithin.of_step {n : Nat} {s t : State} (hr : s.run = .running) (h : step s = .next t)
    (ht : EndsWithin n t) : EndsWithin (n + 1) s := by
  rwa [EndsWithin, drive_next hr h]

/-- Under the invariant a run ends within `n` steps when that many words lead past the end of memory (R83). -/
theorem endsWithin_of_capacity_lt {n : Nat} {s : State} (hs : s.Inv)
    (hn : s.bus.memory.capacity < s.fetchIndex + 4 * n) : EndsWithin n s := by
  induction n generalizing s with
  | zero =>
    obtain ⟨-, -, hp, -⟩ := hs
    rw [hp.fetchIndex_eq] at hn
    have htop := hp.2.2
    omega
  | succ n ih =>
    cases hr : s.run with
    | halted =>
      obtain ⟨-, -, -, -, hcause⟩ := hs
      exact .inl ⟨s, drive_halted hr _, hr, hcause hr⟩
    | running =>
      rcases step_next_or_pastEnd hr with ⟨t, ht⟩ | ⟨hb, hc⟩
      · have hidx := step_fetchIndex hs hr ht
        have hbus := (step_bus ht).1
        exact .of_step hr ht (ih (step_keeps_inv hs ht) (by rw [hbus]; omega))
      · exact .inr ⟨_, _, drive_fault hr (step_pastEnd hr hb hc) n⟩

/-- Settles O49: from any offset, `floor(MEM_SIZE / 4) + 1` words lead past the end of memory. -/
theorem everyRunEnds : Obligations.EveryRunEnds :=
  fun _ hs => endsWithin_of_capacity_lt hs (by omega)

/-- Bytes of memory spell zero exactly when each of them is zero (R33). -/
theorem MemoryController.leNat_bytes_eq_zero_iff (m : MemoryController) (i n : Nat) :
    leNat (m.bytes i n) = 0 ↔ ∀ k < n, m.byte (i + k) = 0#8 := by
  simp [leNat_bytes, ← BitVec.toNat_inj]

/-- Under the invariant a fetch inside memory answers the number the four bytes at the fetch index spell (R72). -/
theorem fetch_of_pcOk {s : State} (hp : s.PcOk) (hc : s.fetchIndex + 4 ≤ s.bus.memory.capacity) :
    s.fetch = .ok (leNat (s.bus.memory.bytes s.fetchIndex 4)) := by
  rw [hp.fetchIndex_eq] at hc ⊢
  exact State.fetch_inside hp.1 hc

/-- A step over a non-zero word inside memory answers a state that is still Running (R82). -/
theorem step_nonzero_word {s : State} (hp : s.PcOk) (hr : s.run = .running)
    (hc : s.fetchIndex + 4 ≤ s.bus.memory.capacity) (hw : ∃ m < 4, s.bus.memory.byte (s.fetchIndex + m) ≠ 0#8) :
    ∃ t, step s = .next t ∧ t.run = .running := by
  have hf := fetch_of_pcOk hp hc
  rw [hp.fetchIndex_eq] at hc
  obtain ⟨t, ht⟩ := step_inside hr hp.1 hc
  refine ⟨t, ht, ?_⟩
  cases hrt : t.run with
  | running => rfl
  | halted =>
    rcases haltsOnlyOnFetchFailure s t hr ht hrt with hb | hzero
    · exact absurd hp.1 (Nat.not_le.mpr hb)
    · obtain ⟨m, hm, hne⟩ := hw
      rw [hf, LoadResult.ok.injEq, MemoryController.leNat_bytes_eq_zero_iff] at hzero
      exact absurd (hzero m hm) hne

/-- A step on a zero word inside memory halts the core, the pc advanced (R75). -/
theorem step_zero_word {s : State} (hp : s.PcOk) (hr : s.run = .running)
    (hc : s.fetchIndex + 4 ≤ s.bus.memory.capacity) (hw : ∀ m < 4, s.bus.memory.byte (s.fetchIndex + m) = 0#8) :
    step s = .next (s.advancePc.halt .invalidInstruction) := by
  have hf := fetch_of_pcOk hp hc
  rw [(MemoryController.leNat_bytes_eq_zero_iff _ _ _).mpr hw] at hf
  exact step_next_iff.mpr ⟨_, cycle_of_fetch_zero hr hf⟩

/-- Settles O50, by induction on the number of non-zero words: each step over one leaves Running with one word less to the
zero word, and the step on the zero word halts. -/
theorem runHaltsAtFirstZeroWord : Obligations.RunHaltsAtFirstZeroWord := by
  intro s n
  induction n generalizing s with
  | zero =>
    intro ⟨hconf, _, hp, _⟩ hr hcap _ hzero
    have hstep := step_zero_word hp hr hcap hzero
    exact ⟨_, drive_next hr hstep 0, rfl, rfl, hp.pc_add_four_toNat hconf hcap⟩
  | succ n ih =>
    intro hs hr hcap hnonzero hzero
    have hfits : s.fetchIndex + 4 ≤ s.bus.memory.capacity := by omega
    obtain ⟨hconf, -, hp, -⟩ := id hs
    obtain ⟨u, hu, hru⟩ := step_nonzero_word hp hr hfits (hnonzero 0 (by omega))
    have hbus : u.bus = s.bus := (step_bus hu).1
    have hidx : ∀ j, u.fetchIndex + 4 * j = s.fetchIndex + 4 * (j + 1) := fun j => by
      rw [step_fetchIndex hs hr hu]
      omega
    have hpc : u.pc.toNat = s.pc.toNat + 4 := by rw [step_pc hr hu, hp.pc_add_four_toNat hconf hfits]
    obtain ⟨t, ht, hfin, hcause, htpc⟩ := ih u (step_keeps_inv hs hu) hru (by rw [hidx, hbus]; exact hcap)
      (fun j hj => by rw [hidx, hbus]; exact hnonzero (j + 1) (by omega)) (by rw [hidx, hbus]; exact hzero)
    exact ⟨t, (drive_next hr hu (n + 1)).trans ht, hfin, hcause, by omega⟩

end Sys2Proof.Machine

/-! The integer register-immediate instruction (spec/41_integer_immediate.md) -/

namespace Sys2Proof.Machine

/-- Everything ADDI does (R90). -/
theorem exec_addi_next (rd rs1 : RegIdx) (imm : Word) (s : State) :
    exec (.addi rd rs1 imm) s = .next (s.writeReg rd (aluAdd (s.readReg rs1) imm)) :=
  execI_next aluAdd rd rs1 imm s

/-- The sum modulo 2^64 does not depend on whether the second operand is read as signed or unsigned (R90, R98). -/
theorem aluAdd_toNat_eq_add_toInt (a b : Word) : ((aluAdd a b).toNat : Int) = (a.toNat + b.toInt) % 2 ^ 64 := by
  rw [aluAdd, BitVec.toNat_add, BitVec.toInt_eq_toNat_cond]
  split <;> omega

/-- Settles O15: the row's mask and match give the operands, and writing the sum to `x[rd]` is all the instruction does. -/
theorem addiEffect : Obligations.AddiEffect := by
  refine ⟨fun _ h => recognise_of_and_maskI h, fun rd rs1 imm s => ⟨_, exec_addi_next rd rs1 imm s, ?_, ?_⟩⟩
  · rw [State.readReg_writeReg_self]
    exact aluAdd_toNat_eq_add_toInt (s.readReg rs1) imm
  · exact s.writeReg_sameBut rd _

end Sys2Proof.Machine

/-! The integer register-register instructions (spec/42_integer_register.md) -/

namespace Sys2Proof.Machine

/-- A register-register operation whose result is the number `n` answers a state in which `x[rd]` is `n` and nothing else
has changed (R84). -/
theorem execR_effect {f : Word → Word → Word} {rd rs1 rs2 : RegIdx} {s : State} {n : Nat}
    (hn : (f (s.readReg rs1) (s.readReg rs2)).toNat = n) :
    ∃ t, execR f rd rs1 rs2 s = .next t ∧ (t.readReg rd).toNat = n ∧ s.SameBut rd t := by
  refine ⟨_, execR_next f rd rs1 rs2 s, ?_, s.writeReg_sameBut rd _⟩
  rw [State.readReg_writeReg_self, hn]

theorem aluAdd_toNat (a b : Word) : (aluAdd a b).toNat = (a.toNat + b.toNat) % 2 ^ 64 := BitVec.toNat_add a b

/-- The minuend comes first, and the borrow is lost (R96, R98). -/
theorem aluSub_toNat (a b : Word) : (aluSub a b).toNat = (a.toNat + 2 ^ 64 - b.toNat) % 2 ^ 64 := by
  have hb := b.isLt
  rw [aluSub, BitVec.toNat_sub]
  omega

/-- The mask of the shift amount keeps its low 6 bits (R97). -/
theorem and_shamtMask_toNat (b : Word) : (b &&& Config.shamtMask).toNat = b.toNat % 64 := by
  rw [BitVec.toNat_and]
  exact Nat.and_two_pow_sub_one_eq_mod b.toNat 6

/-- A left shift is a product by a power of two, of which the low 64 bits are kept (R97). -/
theorem aluSll_toNat (a b : Word) : (aluSll a b).toNat = a.toNat * 2 ^ (b.toNat % 64) % 2 ^ 64 := by
  rw [aluSll, BitVec.toNat_shiftLeft, Nat.shiftLeft_eq, and_shamtMask_toNat]

/-- Settles O16: the row's mask and match give the operands, and writing the sum to `x[rd]` is all the instruction does. -/
theorem addEffect : Obligations.AddEffect :=
  ⟨fun _ h => recognise_of_and_maskR h rfl, fun _ _ _ _ => execR_effect (f := aluAdd) (aluAdd_toNat _ _)⟩

/-- Settles O17: as for ADD, with the difference. -/
theorem subEffect : Obligations.SubEffect :=
  ⟨fun _ h => recognise_of_and_maskR h rfl, fun _ _ _ _ => execR_effect (f := aluSub) (aluSub_toNat _ _)⟩

/-- Settles O18: as for ADD, with the shifted value. -/
theorem sllEffect : Obligations.SllEffect :=
  ⟨fun _ h => recognise_of_and_maskR h rfl, fun _ _ _ _ => execR_effect (f := aluSll) (aluSll_toNat _ _)⟩

end Sys2Proof.Machine

/-! Multiplication and division (spec/43_multiply_divide.md) -/

namespace Sys2Proof.Machine

/-- The low 64 bits of the product (R105, R108). -/
theorem aluMul_toNat (a b : Word) : (aluMul a b).toNat = a.toNat * b.toNat % 2 ^ 64 := BitVec.toNat_mul a b

/-- Settles O19: the row's mask and match give the operands, and writing the product to `x[rd]` is all the instruction
does. -/
theorem mulEffect : Obligations.MulEffect :=
  ⟨fun _ h => recognise_of_and_maskR h rfl, fun _ _ _ _ => execR_effect (f := aluMul) (aluMul_toNat _ _)⟩

/-- Everything DIV does (R106). -/
theorem exec_div_next (rd rs1 rs2 : RegIdx) (s : State) :
    exec (.div rd rs1 rs2) s = .next (s.writeReg rd (aluDiv s.divremSigned (s.readReg rs1) (s.readReg rs2))) :=
  execR_next (aluDiv s.divremSigned) rd rs1 rs2 s

/-- Everything REM does (R107). -/
theorem exec_rem_next (rd rs1 rs2 : RegIdx) (s : State) :
    exec (.rem rd rs1 rs2) s = .next (s.writeReg rd (aluRem s.divremSigned (s.readReg rs1) (s.readReg rs2))) :=
  execR_next (aluRem s.divremSigned) rd rs1 rs2 s

@[simp] theorem aluDiv_zero (signed : Bool) (a : Word) : aluDiv signed a 0#64 = a := if_pos rfl

@[simp] theorem aluRem_zero (signed : Bool) (a : Word) : aluRem signed a 0#64 = a := if_pos rfl

theorem aluDiv_of_ne_zero (signed : Bool) (a : Word) {b : Word} (hb : b ≠ 0#64) : aluDiv signed a b = divq signed a b :=
  if_neg hb

theorem aluRem_of_ne_zero (signed : Bool) (a : Word) {b : Word} (hb : b ≠ 0#64) : aluRem signed a b = remr signed a b :=
  if_neg hb

theorem u64_toNat (n : Int) : ((u64 n).toNat : Int) = n % 2 ^ 64 := by
  rw [u64, BitVec.toNat_ofInt]
  omega

/-- Reducing the two's-complement reading gives the word back (R10). -/
theorem u64_s64 (a : Word) : u64 (s64 a) = a := BitVec.ofInt_toInt

theorem u64_mul (m n : Int) : u64 (m * n) = u64 m * u64 n := BitVec.ofInt_mul m n

theorem u64_sub (m n : Int) : u64 (m - n) = u64 m - u64 n := by
  simp only [u64, Int.sub_eq_add_neg, BitVec.sub_eq_add_neg, BitVec.ofInt_add, BitVec.ofInt_neg]

/-- Settles O20: the zero test fails, and each reading of `divq` is the quotient it is defined by. -/
theorem divEffect : Obligations.DivEffect := by
  refine ⟨fun _ h => recognise_of_and_maskR h rfl, fun rd rs1 rs2 s hb =>
    ⟨_, exec_div_next rd rs1 rs2 s, fun hs => ?_, fun hs => ?_, s.writeReg_sameBut rd _⟩⟩ <;>
    rw [State.readReg_writeReg_self, hs, aluDiv_of_ne_zero _ _ hb]
  · exact u64_toNat _
  · exact BitVec.toNat_udiv

/-- The unsigned remainder does not borrow: the quotient times the divisor is at most the dividend (R109). -/
theorem remr_unsigned_toNat (a b : Word) : (remr false a b).toNat = a.toNat - a.toNat / b.toNat * b.toNat := by
  have hle : a.toNat / b.toNat * b.toNat ≤ a.toNat := Nat.div_mul_le_self a.toNat b.toNat
  have hmul : (a / b * b).toNat = a.toNat / b.toNat * b.toNat := by
    rw [BitVec.toNat_mul, BitVec.toNat_udiv, Nat.mod_eq_of_lt (hle.trans_lt a.isLt)]
  calc (a - a / b * b).toNat
      = a.toNat - (a / b * b).toNat := BitVec.toNat_sub_of_le (BitVec.le_def.mpr (hmul.trans_le hle))
    _ = a.toNat - a.toNat / b.toNat * b.toNat := by rw [hmul]

/-- Settles O21: the zero test fails, and each reading of `remr` is the remainder it is defined by. -/
theorem remEffect : Obligations.RemEffect := by
  refine ⟨fun _ h => recognise_of_and_maskR h rfl, fun rd rs1 rs2 s hb =>
    ⟨_, exec_rem_next rd rs1 rs2 s, fun hs => ?_, fun hs => ?_, s.writeReg_sameBut rd _⟩⟩ <;>
    rw [State.readReg_writeReg_self, hs, aluRem_of_ne_zero _ _ hb]
  · exact u64_toNat _
  · exact remr_unsigned_toNat _ _

/-- Settles O22: the zero test holds, and both results are the dividend. -/
theorem divisionByZeroWritesDividend : Obligations.DivisionByZeroWritesDividend := by
  refine fun rd rs1 rs2 s hb => ⟨⟨_, exec_div_next rd rs1 rs2 s, ?_, s.writeReg_sameBut rd _⟩,
    ⟨_, exec_rem_next rd rs1 rs2 s, ?_, s.writeReg_sameBut rd _⟩⟩
  · rw [State.readReg_writeReg_self, hb, aluDiv_zero]
  · rw [State.readReg_writeReg_self, hb, aluRem_zero]

/-- On both readings the remainder is the dividend minus the quotient times the divisor, in 64-bit arithmetic: reduction
modulo 2^64 passes through the difference and the product (R107, R109). -/
theorem remr_eq_sub (signed : Bool) (a b : Word) : remr signed a b = a - divq signed a b * b := by
  cases signed with
  | false => rfl
  | true =>
    calc u64 (s64 a - (s64 a).tdiv (s64 b) * s64 b)
        = u64 (s64 a) - u64 ((s64 a).tdiv (s64 b)) * u64 (s64 b) := by rw [u64_sub, u64_mul]
      _ = a - u64 ((s64 a).tdiv (s64 b)) * b := by rw [u64_s64, u64_s64]

/-- Settles O23: what the remainder subtracts from the dividend is added to it again. -/
theorem quotientRemainderIdentity : Obligations.QuotientRemainderIdentity := by
  refine fun rd rd' rs1 rs2 s hb => ⟨_, _, exec_div_next rd rs1 rs2 s, exec_rem_next rd' rs1 rs2 s, ?_⟩
  rw [State.readReg_writeReg_self, State.readReg_writeReg_self, aluDiv_of_ne_zero _ _ hb, aluRem_of_ne_zero _ _ hb,
    remr_eq_sub, add_sub_cancel]

/-- The remainder of truncated division by a word other than zero is smaller in magnitude than the divisor (R107). -/
theorem natAbs_tmod_toInt_lt (a : Word) {b : Word} (hb : b ≠ 0#64) :
    (a.toInt.tmod b.toInt).natAbs < b.toInt.natAbs := by
  have hpos : 0 < b.toInt.natAbs := Int.natAbs_pos.mpr (BitVec.toInt_ne.mpr hb)
  rw [Int.natAbs_tmod]
  exact Nat.mod_lt _ hpos

/-- The signed remainder loses nothing in the reduction modulo 2^64: it is smaller in magnitude than a divisor that fits
64 bits (R107, R109). -/
theorem remr_signed_toInt (a : Word) {b : Word} (hb : b ≠ 0#64) : (remr true a b).toInt = a.toInt.tmod b.toInt := by
  have hrem : remr true a b = BitVec.ofInt 64 (a.toInt.tmod b.toInt) := by
    rw [Int.tmod_def, mul_comm]
    rfl
  have hbound := natAbs_tmod_toInt_lt a hb
  have hlo := b.le_toInt
  have hhi := b.toInt_lt
  rw [hrem, BitVec.toInt_ofInt_eq_self (by decide) (by omega) (by omega)]

/-- The remainder of truncated division is zero or has the sign of the dividend (R107). -/
theorem tmod_eq_zero_or_pos_iff (a b : Int) : a.tmod b = 0 ∨ (0 < a.tmod b ↔ 0 < a) := by
  by_cases hdvd : b ∣ a
  · exact .inl (Int.tmod_eq_zero_of_dvd hdvd)
  · have hsign : (a.tmod b).sign = a.sign := by rw [Int.sign_tmod, if_neg hdvd]
    exact .inr (by rw [← Int.sign_eq_one_iff_pos, hsign, Int.sign_eq_one_iff_pos])

/-- Settles O24: the result is the remainder of truncated division, which is bounded by the divisor and has the dividend's
sign. -/
theorem remainderSignAndBound : Obligations.RemainderSignAndBound := by
  intro rd rs1 rs2 s hs hb
  refine ⟨_, exec_rem_next rd rs1 rs2 s, ?_⟩
  rw [State.readReg_writeReg_self, hs, aluRem_of_ne_zero _ _ hb, ← BitVec.toInt_inj, remr_signed_toInt _ hb]
  exact ⟨natAbs_tmod_toInt_lt _ hb, tmod_eq_zero_or_pos_iff _ _⟩

/-- Settles O25: the two readings fix both operands, and the model divides them. -/
theorem signedDivisionOverflowWraps : Obligations.SignedDivisionOverflowWraps := by
  intro rd rs1 rs2 s hs h1 h2
  have ha : s.readReg rs1 = u64 (-2 ^ 63) := by rw [← u64_s64 (s.readReg rs1), s64, h1]
  have hb : s.readReg rs2 = u64 (-1) := by rw [← u64_s64 (s.readReg rs2), s64, h2]
  refine ⟨⟨_, exec_div_next rd rs1 rs2 s, ?_⟩, ⟨_, exec_rem_next rd rs1 rs2 s, ?_⟩⟩ <;>
    rw [State.readReg_writeReg_self, hs, ha, hb]
  · decide
  · decide

/-- Below 2^63 the signed quotient is the quotient of the numbers the words spell, hence the unsigned one (R110). -/
theorem divq_of_lt {a b : Word} (ha : a.toNat < 2 ^ 63) (hb : b.toNat < 2 ^ 63) (signed : Bool) :
    divq signed a b = a / b := by
  cases signed with
  | false => rfl
  | true =>
    have hsa : s64 a = a.toNat := BitVec.toInt_eq_toNat_of_lt (by omega)
    have hsb : s64 b = b.toNat := BitVec.toInt_eq_toNat_of_lt (by omega)
    calc u64 ((s64 a).tdiv (s64 b))
        = BitVec.ofNat 64 (a.toNat / b.toNat) := by rw [hsa, hsb, u64, ← Int.ofNat_tdiv, BitVec.ofInt_natCast]
      _ = a / b := (BitVec.udiv_def).symm

/-- Below 2^63 the remainder does not depend on the reading, since the quotient does not (R110). -/
theorem remr_of_lt {a b : Word} (ha : a.toNat < 2 ^ 63) (hb : b.toNat < 2 ^ 63) (signed : Bool) :
    remr signed a b = a - a / b * b := by
  rw [remr_eq_sub, divq_of_lt ha hb]

/-- Settles O26: below 2^63 the quotient and the remainder are those of the unsigned reading, and the zero test does not
ask for the reading. -/
theorem signednessIrrelevantBelow : Obligations.SignednessIrrelevantBelow := by
  intro rd rs1 rs2 s ha hb sg
  refine ⟨_, _, _, _, exec_div_next rd rs1 rs2 s, exec_div_next rd rs1 rs2 _, ?_,
    exec_rem_next rd rs1 rs2 s, exec_rem_next rd rs1 rs2 _, ?_⟩ <;>
    rw [State.readReg_writeReg_self, State.readReg_writeReg_self]
  · exact if_congr .rfl rfl ((divq_of_lt ha hb _).trans (divq_of_lt ha hb _).symm)
  · exact if_congr .rfl rfl ((remr_of_lt ha hb _).trans (remr_of_lt ha hb _).symm)

end Sys2Proof.Machine

/-! Control against the registers' contents (spec/44_absent_families.md rule R120) -/

namespace Sys2Proof.Machine

/-- Two states that agree on everything but the registers and the signedness of division: the part of the state that decides
where control goes (R120). -/
structure State.SameControl (s s' : State) : Prop where
  pc : s.pc = s'.pc
  run : s.run = s'.run
  cause : s.cause = s'.cause
  bus : s.bus = s'.bus

theorem State.SameControl.advancePc {s s' : State} (h : s.SameControl s') : s.advancePc.SameControl s'.advancePc :=
  ⟨congrArg (· + 4) h.pc, h.run, h.cause, h.bus⟩

theorem State.SameControl.halt {s s' : State} (h : s.SameControl s') (c : HaltCause) :
    (s.halt c).SameControl (s'.halt c) :=
  ⟨h.pc, rfl, rfl, h.bus⟩

/-- A register write is invisible to control, whatever register and value each state gets (R84). -/
theorem State.SameControl.writeReg {s s' : State} (h : s.SameControl s') (rd rd' : RegIdx) (v v' : Word) :
    (s.writeReg rd v).SameControl (s'.writeReg rd' v') :=
  ⟨h.pc, h.run, h.cause, h.bus⟩

/-- The fetch reads pc and bus alone (R72). -/
theorem State.SameControl.fetch_eq {s s' : State} (h : s.SameControl s') : s.fetch = s'.fetch := by
  rw [State.fetch, State.fetch, h.pc, h.bus]

/-- The event of an executed instruction reads the run state and the latch alone (R27). -/
theorem State.SameControl.executedEvent_eq {s s' : State} (h : s.SameControl s') : executedEvent s = executedEvent s' := by
  rw [executedEvent, executedEvent, h.run, h.cause]

/-- An instruction keeps two states equal in control: the sentinel halts both, any other writes a register of each (R75,
R84). -/
theorem State.SameControl.exec_agree {s s' : State} (h : s.SameControl s') (i : Instr) :
    ∃ t t', exec i s = .next t ∧ exec i s' = .next t' ∧ t.SameControl t' := by
  obtain ⟨t, ht⟩ := exec_next i s
  obtain ⟨t', ht'⟩ := exec_next i s'
  refine ⟨t, t', ht, ht', ?_⟩
  rcases exec_cases ht with ⟨rfl, rfl⟩ | ⟨rd, v, hd, rfl⟩
  · cases ht'
    exact h.halt .invalidInstruction
  · rcases exec_cases ht' with ⟨rfl, -⟩ | ⟨rd', v', -, rfl⟩
    · cases hd
    · exact h.writeReg rd rd' v v'

/-- Executing a word, whatever it selects, keeps two states equal in control and gives them the same event (R78 to R80). -/
theorem State.SameControl.executeWord_agree {s s' : State} (h : s.SameControl s') (w : Raw) :
    ∃ t t' e, executeWord w s = .next (t, e) ∧ executeWord w s' = .next (t', e) ∧ t.SameControl t' := by
  cases hw : recognise w with
  | instr i =>
    obtain ⟨t, t', ht, ht', hc⟩ := h.exec_agree i
    refine ⟨t, t', executedEvent t, ?_, ?_, hc⟩
    · rw [executeWord_instr hw, ht, withEvent]
    · rw [executeWord_instr hw, ht', withEvent, hc.executedEvent_eq]
  | unimplemented raw =>
    obtain rfl := eq_of_recognise_unimplemented hw
    exact ⟨s, s', _, executeWord_unimplemented hw s, executeWord_unimplemented hw s', h⟩
  | unknown raw =>
    obtain rfl := eq_of_recognise_unknown hw
    exact ⟨s, s', _, executeWord_unknown hw s, executeWord_unknown hw s', h⟩
  | unreachableFormat => exact absurd hw (recognise_ne_unreachableFormat w)

/-- A cycle keeps two states equal in control and gives them the same event, or gives them the same fault: the run state and
the fetch's answer, which they share, choose its branch (R71). -/
theorem State.SameControl.cycle_agree {s s' : State} (h : s.SameControl s') :
    (∃ t t' e, cycle s = .next (t, e) ∧ cycle s' = .next (t', e) ∧ t.SameControl t') ∨
    (∃ f, cycle s = .fault f ∧ cycle s' = .fault f) := by
  cases hr : s.run with
  | halted => exact .inl ⟨s, s', .idle, cycle_halted hr, cycle_halted (h.run.symm.trans hr), h⟩
  | running =>
    rw [cycle_running hr, cycle_running (h.run.symm.trans hr), ← h.fetch_eq]
    rcases fetch_cases s with ⟨-, hf⟩ | ⟨-, -, hf⟩ | ⟨-, -, hf⟩
    · rw [hf]
      exact .inl ⟨_, _, _, rfl, rfl, h.advancePc.halt _⟩
    · rw [hf]
      exact .inr ⟨_, rfl, rfl⟩
    · rw [hf]
      exact .inl (h.advancePc.executeWord_agree _)

/-- Settles O45: of the two outcomes of a cycle from states equal in control, the first says so field by field. -/
theorem controlIndependentOfRegisters : Obligations.ControlIndependentOfRegisters := by
  intro s s' hpc hrun hcause hbus
  have h : s.SameControl s' := ⟨hpc, hrun, hcause, hbus⟩
  refine h.cycle_agree.imp_left ?_
  rintro ⟨t, t', e, ht, ht', hc⟩
  exact ⟨t, t', e, ht, ht', hc.pc, hc.run, hc.cause, hc.bus⟩

end Sys2Proof.Machine

/-! The halt cause of a zero word (spec/60_exceptions.md rule R132) -/

namespace Sys2Proof.Machine

/-- Settles O35: of the ways a step can go, only the sentinel, the zero word, sets that cause; a rejected address sets the
other one, and the rest leave the cause as it was. -/
theorem zeroWordHalts : Obligations.ZeroWordHalts := by
  refine ⟨fun s hr hf => ⟨_, cycle_of_fetch_zero hr hf, rfl, rfl, rfl,
    s.advancePc_sameData.trans (State.halt_sameData _ _)⟩, fun s t h hcause => ?_⟩
  obtain ⟨e, hcycle⟩ := cycle_of_step h
  rcases cycle_cases hcycle with ⟨-, rfl, -⟩ | ⟨-, -, rfl, -⟩ |
    ⟨hr, -, -, w, hf, ⟨i, hw, he, -⟩ | ⟨-, rfl, -⟩ | ⟨-, rfl, -⟩⟩
  · exact .inl hcause
  · cases hcause
  · rcases exec_cases he with ⟨rfl, -⟩ | ⟨rd, v, -, rfl⟩
    · rw [eq_zero_of_recognise hw] at hf
      exact .inr ⟨hr, hf⟩
    · exact .inl hcause
  · exact .inl hcause
  · exact .inl hcause

end Sys2Proof.Machine

/-! The errors of construction (spec/70_reset_and_hazards.md rule R150) -/

namespace Sys2Proof.Machine

/-- Parameters outside R5 are refused, whatever the image (decision D3; log 10). -/
theorem construct_of_invalid {p : Config.Params} (hp : p.valid = false) (image : List Byte) :
    construct p image = .error .invalidParameters := if_pos hp

/-- Within R5, an image longer than the memory is the one thing left to refuse (R45, R137). -/
theorem construct_of_valid_of_too_long {p : Config.Params} {image : List Byte} (hp : p.valid = true)
    (hi : p.memSize < image.length) : construct p image = .error .imageTooLarge := by
  rw [construct, if_neg (by simp [hp]), if_pos hi]

/-- What each error of construction tells of the parameters and the image (R150). -/
theorem construct_error {p : Config.Params} {image : List Byte} {e : ConstructionError}
    (h : construct p image = .error e) :
    (p.valid = false ∧ e = .invalidParameters) ∨
      (p.valid = true ∧ p.memSize < image.length ∧ e = .imageTooLarge) := by
  unfold construct at h
  split_ifs at h with hp hi
  · cases h
    exact .inl ⟨hp, rfl⟩
  · cases h
    exact .inr ⟨by simpa using hp, hi, rfl⟩

/-- Settles O52: an error says which check failed, and a failed check gives its error, each a lemma above. -/
theorem constructionErrors : Obligations.ConstructionErrors := by
  intro p image
  rw [← valid_iff p, Bool.not_eq_true]
  refine ⟨⟨fun h => ?_, fun ⟨hp, hi⟩ => construct_of_valid_of_too_long hp hi⟩,
    ⟨fun h => ?_, fun hp => construct_of_invalid hp image⟩⟩
  · obtain ⟨-, he⟩ | ⟨hp, hi, -⟩ := construct_error h
    · cases he
    · exact ⟨hp, hi⟩
  · obtain ⟨hp, -⟩ | ⟨-, -, he⟩ := construct_error h
    · exact hp
    · cases he

end Sys2Proof.Machine

/-! Encoding (spec/30_encoding.md): the round trip between instructions and words -/

namespace Sys2Proof

/-- An immediate within the range of ADDI is the sign extension of its low 12 bits (R53). -/
theorem signExtend_low_of_immInRange {imm : Word} (h : immInRange imm = true) :
    (imm.extractLsb' 0 12).signExtend 64 = imm := by
  have hrange : -2048 ≤ imm.toInt ∧ imm.toInt ≤ 2047 := of_decide_eq_true h
  have hlow : (imm.extractLsb' 0 12).toNat = imm.toNat % 2 ^ 12 := by
    rw [BitVec.extractLsb'_toNat, Nat.shiftRight_zero]
  refine BitVec.eq_of_toInt_eq ?_
  rw [BitVec.toInt_signExtend_of_le (by decide), BitVec.toInt_eq_toNat_cond, hlow]
  rw [BitVec.toInt_eq_toNat_cond] at hrange ⊢
  split_ifs at hrange ⊢ <;> omega

/-- The I-immediate of any word is within the range of ADDI (R53). -/
theorem immInRange_immIOf (w : Raw) : immInRange (immIOf w) = true := by
  have hw := w.isLt
  refine decide_eq_true ?_
  rw [immIOf_toInt]
  split_ifs <;> omega

/-- The word of an ADDI whose immediate is in range is recognised as that ADDI (R53, R59). -/
theorem recognise_encode_addi (rd rs1 : RegIdx) {imm : Word} (h : immInRange imm = true) :
    recognise (encode (.addi rd rs1 imm)) = .instr (.addi rd rs1 imm) := by
  obtain ⟨hop, hrd, h3, hrs1, himm⟩ := fields_encodeI (imm.extractLsb' 0 12) rs1 0x0#3 rd 0x13#7
  rw [encode, recognise_opImm hop, if_pos h3, hrd, hrs1, immIOf, himm, signExtend_low_of_immInRange h]

/-- A word laid out as an R row selects by the `funct3` and `funct7` it was laid out with (R52, R58). -/
theorem recognise_encodeR (funct7 : BitVec 7) (rs2 rs1 : RegIdx) (funct3 : BitVec 3) (rd : RegIdx) :
    recognise (encodeR funct7 rs2 rs1 funct3 rd 0x33#7) =
      selectR (encodeR funct7 rs2 rs1 funct3 rd 0x33#7) rd funct3 rs1 rs2 funct7 := by
  obtain ⟨hop, hrd, h3, hrs1, hrs2, h7⟩ := fields_encodeR funct7 rs2 rs1 funct3 rd 0x33#7
  rw [recognise_op hop, hrd, h3, hrs1, hrs2, h7]

/-- The word of a well-formed instruction is recognised as that instruction. -/
theorem recognise_encode {i : Instr} (h : i.wellFormed = true) : recognise (encode i) = .instr i := by
  cases i
  case addi rd rs1 imm => exact recognise_encode_addi rd rs1 h
  case zeroSentinel => rfl
  all_goals exact recognise_encodeR _ _ _ _ _

/-- An instruction that some word is recognised as is well-formed: an ADDI has that word's immediate. -/
theorem wellFormed_of_recognise {w : Raw} {i : Instr} (h : recognise w = .instr i) : i.wellFormed = true := by
  cases i
  case addi rd rs1 imm =>
    have hop : opcodeOf w = 0x13#7 := by
      rw [← encode_of_recognise h]
      exact (fields_encodeI _ _ _ _ _).1
    rw [recognise_opImm hop] at h
    split_ifs at h
    cases h
    exact immInRange_immIOf w
  all_goals rfl

/-- The instruction a word is recognised as, by the encoder: the one well-formed instruction of that word. -/
theorem recognise_instr_iff {w : Raw} {i : Instr} :
    recognise w = .instr i ↔ i.wellFormed = true ∧ encode i = w :=
  ⟨fun h => ⟨wellFormed_of_recognise h, encode_of_recognise h⟩, fun ⟨hwf, hw⟩ => hw ▸ recognise_encode hwf⟩

/-- The four bytes of a word in memory order decode to what the word selects, and the bytes after them are left over
(R41, R50). -/
theorem decodeBytes_leBytes (w : Raw) (rest : List Byte) :
    decodeBytes (leBytes 4 w.toNat ++ rest) = some (recognise w, rest) := by
  change some (recognise (BitVec.ofNat 32 (leNat (leBytes 4 w.toNat))), rest) = _
  rw [leNat_leBytes 4 _ w.isLt, BitVec.ofNat_toNat, BitVec.setWidth_eq]

/-- The opcode table's numbering of a word that is an instruction decodes to that instruction. -/
theorem decodeTableWord_of_recognise {w : Raw} {i : Instr} (h : recognise w = .instr i) :
    decodeTableWord 32 w.toNat = some i := by
  have hbytes := decodeBytes_leBytes w []
  rw [List.append_nil] at hbytes
  rw [decodeTableWord, tableWord_toNat, hbytes, h]

/-- Settles O2: the word of the instruction is recognised as it, and both byte decoders read that word back. -/
theorem decodeOfEncode : Obligations.DecodeOfEncode := by
  intro i hwf
  have hword := recognise_encode hwf
  exact ⟨hword, decodeTableWord_of_recognise hword, fun rest => by rw [decodeBytes_leBytes, hword]⟩

/-- Settles O3, the direction from the word to the instruction. -/
theorem encodeOfDecode : Obligations.EncodeOfDecode :=
  fun _ _ => recognise_instr_iff.mp

/-- Settles O1: nine words are those of the instruction the spec gives, the others fail the opcode or the key of every row. -/
theorem decodesSpecWords : Obligations.DecodesSpecWords := by
  have hrow {w : Raw} {i : Instr} (hwf : i.wellFormed = true) (hw : encode i = w) : recognise w = .instr i :=
    recognise_instr_iff.mpr ⟨hwf, hw⟩
  refine ⟨hrow rfl rfl, hrow rfl rfl, hrow rfl rfl, hrow rfl rfl, hrow rfl rfl, hrow rfl rfl, hrow rfl rfl, hrow rfl rfl,
    hrow rfl rfl, ?unknown, ?badFunct3, ?badFunct7⟩
  case unknown => exact (recognise_unknown_iff _).mpr (by decide)
  case badFunct3 => exact (recognise_unimplemented_iff _).mpr (by decide)
  case badFunct7 => exact (recognise_unimplemented_iff _).mpr (by decide)

end Sys2Proof

/-! Reset (spec/70_reset_and_hazards.md rule R150) and the memory controller's checks (spec/20_memory.md) -/

namespace Sys2Proof.Machine

/-- Within R5 the reset value of register 2 does not wrap (R25, decision D5). -/
theorem spReset_toNat {p : Config.Params} (h : p.valid = true) : (spReset p).toNat = p.memBase.toNat + p.memSize := by
  obtain ⟨-, htop⟩ := (valid_iff p).mp h
  rw [spReset, BitVec.toNat_add, BitVec.toNat_ofNat]
  omega

/-- The registers at reset: register 2 is the top of memory, every other one is 0 (R25). -/
theorem State.readReg_of_regsReset {s : State} {p : Config.Params} (h : s.x = regsReset p) (r : RegIdx) :
    s.readReg r = if r = 2 then spReset p else 0#64 := by
  have hnum : r = 2 ↔ 2 = r.toNat := by rw [← BitVec.toNat_inj, eq_comm]; rfl
  simp only [State.readReg, h, regsReset, Vector.getElem_set, Vector.getElem_replicate, hnum]

/-- Settles O13: what construction accepts is within R5, and the state it gives is the one R25 lists. -/
theorem resetState : Obligations.ResetState := by
  intro p image s h
  obtain ⟨hvalid, -, rfl⟩ := construct_ok h
  refine ⟨rfl, rfl, rfl, rfl, memoryReset_capacity _ image, rfl, ?_, fun r hr => ?_⟩
  · rw [State.readReg_of_regsReset rfl, if_pos rfl, spReset_toNat hvalid]
  · rw [State.readReg_of_regsReset rfl, if_neg hr]

/-- The width is refused exactly when it is not supported, whatever the index (R34, decision D16). -/
theorem MemoryController.load_invalidWidth_iff (m : MemoryController) (i w : Nat) :
    m.load i w = .err .invalidWidth ↔ w ∉ Config.widths := by
  refine ⟨fun h hw => ?_, fun hw => if_neg hw⟩
  rw [load_of_mem m hw] at h
  split_ifs at h

/-- Settles O9: the check of the width first, then that of the upper bound. -/
theorem loadChecksInOrder : Obligations.LoadChecksInOrder := by
  intro m i w
  rw [← mem_widths_iff]
  refine ⟨m.load_invalidWidth_iff i w, fun hw hc => ?_⟩
  rw [MemoryController.load_of_mem m hw, if_neg (by omega)]

/-- Settles O14: the image enters construction in the bytes of memory only, and the empty one places none. -/
theorem resetIsDefaultConstruction : Obligations.ResetIsDefaultConstruction := by
  intro image hi
  obtain ⟨s, hs, -⟩ := construct_of_fits (p := Config.defaults) (by decide) hi
  obtain ⟨-, -, rfl⟩ := construct_ok hs
  refine ⟨_, hs, rfl, rfl, memoryReset_capacity _ image, rfl, ?_⟩
  rintro rfl
  rfl

/-- Settles O47: `State.reset` is a constructed state, and every constructed state has the invariant. -/
theorem resetHasInvariant : Obligations.ResetHasInvariant := by
  obtain ⟨s, hs, -, -, -, -, hnil⟩ := resetIsDefaultConstruction [] (Nat.zero_le _)
  exact constructionHasInvariant _ _ _ (hnil rfl ▸ hs)

end Sys2Proof.Machine
